-- ==== Sys2Proof/Word.lean ====
section
/-! DEFINITION. The bit-vector types of the machine (10_state.md R20, R22, R23; 30_encoding.md R81). -/

namespace Sys2Proof

/-- 8 bits: a V register, a timer, a memory byte, the immediate `nn` (R20, R27, R28, R31, R82). -/
abbrev Byte := BitVec 8

/-- 16 bits: I, PC, a call-stack entry, an instruction word (R22, R23, R24, R80). -/
abbrev Word := BitVec 16

/-- The 12-bit address immediate `nnn` (R82). -/
abbrev Addr12 := BitVec 12

/-- A register number 0..15; register 15 is VF (R20). -/
abbrev Reg := Fin 16

end Sys2Proof
end

