-- ==== Sys2Proof/Syntax.lean ====
section
/-! DEFINITION. The instructions: one constructor per row of spec/opcode_table.json, in the table's order
(30_encoding.md R83, R85). -/

namespace Sys2Proof

/-- The closed set of instructions (R84, R85). `x` and `y` are register numbers, `nn` an 8-bit immediate, `nnn` a
12-bit address, `n` a count of sprite rows (R81, R82). SHR and SHL keep the `y` they were decoded from, although
it feeds nothing (R87), so that an instruction names its word. -/
inductive Instr where
  | cls
  | ret
  | jpNnn (nnn : Addr12)
  | callNnn (nnn : Addr12)
  | seVxNn (x : Reg) (nn : Byte)
  | sneVxNn (x : Reg) (nn : Byte)
  | seVxVy (x y : Reg)
  | sneVxVy (x y : Reg)
  | ldVxNn (x : Reg) (nn : Byte)
  | addVxNn (x : Reg) (nn : Byte)
  | ldVxVy (x y : Reg)
  | orVxVy (x y : Reg)
  | andVxVy (x y : Reg)
  | xorVxVy (x y : Reg)
  | addVxVy (x y : Reg)
  | subVxVy (x y : Reg)
  | shrVx (x y : Reg)
  | subnVxVy (x y : Reg)
  | shlVx (x y : Reg)
  | ldINnn (nnn : Addr12)
  | jpV0Nnn (nnn : Addr12)
  | rndVxNn (x : Reg) (nn : Byte)
  | drwVxVyN (x y : Reg) (n : Nat)
  | skpVx (x : Reg)
  | sknpVx (x : Reg)
  | ldVxDt (x : Reg)
  | ldVxK (x : Reg)
  | ldDtVx (x : Reg)
  | ldStVx (x : Reg)
  | addIVx (x : Reg)
  | ldFVx (x : Reg)
  | ldBVx (x : Reg)
  | ldMemIVx (x : Reg)
  | ldVxMemI (x : Reg)
  deriving DecidableEq, Repr

end Sys2Proof
end

