-- ==== Sys2Proof/Decode.lean ====
section
/-! DEFINITION. Fields, the decoder (total, rejecting by name), the encoder and the opcode map
(30_encoding.md R80 to R88; 20_memory.md R56). -/

namespace Sys2Proof

/-! ### Fields (R14, R81) -/

/-- `w[hi:lo]`, the unsigned field of bits `hi` down to `lo` (R14). -/
def bits (w : Word) (hi lo : Nat) : Nat := w.toNat / 2 ^ lo % 2 ^ (hi + 1 - lo)

/-- The field `x` = bits 8 to 11 (R81). -/
def fieldX (w : Word) : Reg := Fin.ofNat 16 (bits w 11 8)

/-- The field `y` = bits 4 to 7 (R81). -/
def fieldY (w : Word) : Reg := Fin.ofNat 16 (bits w 7 4)

/-- The field `n` = bits 0 to 3 (R81). -/
def fieldN (w : Word) : Nat := bits w 3 0

/-- The field `nn` = bits 0 to 7 (R81). -/
def fieldNN (w : Word) : Byte := BitVec.ofNat 8 (bits w 7 0)

/-- The field `nnn` = bits 0 to 11 (R81). -/
def fieldNNN (w : Word) : Addr12 := BitVec.ofNat 12 (bits w 11 0)

/-- The big-endian word of two consecutive bytes, the first at the lower address (R56, R101). -/
def wordOfBytes (hi lo : Byte) : Word := BitVec.ofNat 16 (hi.toNat * 256 + lo.toNat)

/-- The byte stored at the lower address: bits 15..8 (R56). -/
def hiByte (w : Word) : Byte := BitVec.ofNat 8 (bits w 15 8)

/-- The byte stored at the higher address: bits 7..0 (R56). -/
def loByte (w : Word) : Byte := BitVec.ofNat 8 (bits w 7 0)

/-! ### The decoder (R84, R86) -/

/-- Why bytes are not an instruction: the word matches no row of the opcode map (R86), or fewer than two bytes are
there (R80). -/
inductive Reject where
  | unknownOpcode (w : Word)
  | truncated
  deriving DecidableEq, Repr

/-- The rows 00E0 and 00EE; every other 0nnn word is unknown (R85, R86). -/
def decodeOp0 (w : Word) : Except Reject Instr :=
  if bits w 11 0 = 0x0E0 then .ok .cls
  else if bits w 11 0 = 0x0EE then .ok .ret
  else .error (.unknownOpcode w)

/-- The rows 8xy0 to 8xy7 and 8xyE (R85). -/
def decodeOp8 (w : Word) : Except Reject Instr :=
  match fieldN w with
  | 0x0 => .ok (.ldVxVy (fieldX w) (fieldY w))
  | 0x1 => .ok (.orVxVy (fieldX w) (fieldY w))
  | 0x2 => .ok (.andVxVy (fieldX w) (fieldY w))
  | 0x3 => .ok (.xorVxVy (fieldX w) (fieldY w))
  | 0x4 => .ok (.addVxVy (fieldX w) (fieldY w))
  | 0x5 => .ok (.subVxVy (fieldX w) (fieldY w))
  | 0x6 => .ok (.shrVx (fieldX w) (fieldY w))
  | 0x7 => .ok (.subnVxVy (fieldX w) (fieldY w))
  | 0xE => .ok (.shlVx (fieldX w) (fieldY w))
  | _ => .error (.unknownOpcode w)

/-- The rows Ex9E and ExA1 (R85). -/
def decodeOpE (w : Word) : Except Reject Instr :=
  match bits w 7 0 with
  | 0x9E => .ok (.skpVx (fieldX w))
  | 0xA1 => .ok (.sknpVx (fieldX w))
  | _ => .error (.unknownOpcode w)

/-- The nine rows Fx07 to Fx65 (R85). -/
def decodeOpF (w : Word) : Except Reject Instr :=
  match bits w 7 0 with
  | 0x07 => .ok (.ldVxDt (fieldX w))
  | 0x0A => .ok (.ldVxK (fieldX w))
  | 0x15 => .ok (.ldDtVx (fieldX w))
  | 0x18 => .ok (.ldStVx (fieldX w))
  | 0x1E => .ok (.addIVx (fieldX w))
  | 0x29 => .ok (.ldFVx (fieldX w))
  | 0x33 => .ok (.ldBVx (fieldX w))
  | 0x55 => .ok (.ldMemIVx (fieldX w))
  | 0x65 => .ok (.ldVxMemI (fieldX w))
  | _ => .error (.unknownOpcode w)

/-- Decode one instruction word by its major opcode `op = w[15:12]` (R81, R84, R85); every word that is no row is
unknown (R86). -/
def decode (w : Word) : Except Reject Instr :=
  match bits w 15 12 with
  | 0x0 => decodeOp0 w
  | 0x1 => .ok (.jpNnn (fieldNNN w))
  | 0x2 => .ok (.callNnn (fieldNNN w))
  | 0x3 => .ok (.seVxNn (fieldX w) (fieldNN w))
  | 0x4 => .ok (.sneVxNn (fieldX w) (fieldNN w))
  | 0x5 => if fieldN w = 0 then .ok (.seVxVy (fieldX w) (fieldY w)) else .error (.unknownOpcode w)
  | 0x6 => .ok (.ldVxNn (fieldX w) (fieldNN w))
  | 0x7 => .ok (.addVxNn (fieldX w) (fieldNN w))
  | 0x8 => decodeOp8 w
  | 0x9 => if fieldN w = 0 then .ok (.sneVxVy (fieldX w) (fieldY w)) else .error (.unknownOpcode w)
  | 0xA => .ok (.ldINnn (fieldNNN w))
  | 0xB => .ok (.jpV0Nnn (fieldNNN w))
  | 0xC => .ok (.rndVxNn (fieldX w) (fieldNN w))
  | 0xD => .ok (.drwVxVyN (fieldX w) (fieldY w) (fieldN w))
  | 0xE => decodeOpE w
  | 0xF => decodeOpF w
  | _ => .error (.unknownOpcode w)

/-- Decode the first instruction of a list of bytes, and give the bytes after it (R56, R80). -/
def decodeBytes : List Byte → Except Reject (Instr × List Byte)
  | hi :: lo :: rest =>
    match decode (wordOfBytes hi lo) with
    | .ok i => .ok (i, rest)
    | .error r => .error r
  | _ => .error .truncated

/-- The word of the opcode table whose low `nbits` bits are those of `w` and whose other bits are 0. -/
def tableWord (nbits w : Nat) : Word := BitVec.ofNat 16 (w % 2 ^ nbits)

/-- The bytes of that word as the hardware stores them, the high byte first (R56). -/
def tableBytes (nbits w : Nat) : List Byte := [hiByte (tableWord nbits w), loByte (tableWord nbits w)]

/-- The instruction the decoder reads from an instruction whose bits are `w`, numbered as spec/opcode_table.json
numbers them; no instruction is longer than 16 bits (R80). -/
def decodeTableWord (nbits w : Nat) : Option Instr :=
  if nbits ≤ 16 then
    match decodeBytes (tableBytes nbits w) with
    | .ok (i, []) => some i
    | _ => none
  else none

/-! ### The encoder (R83, R85) -/

/-- A word from its fields, each given with the weight of its lowest nibble; a field wider than a nibble (`nn`,
`nnn`) stands in the place of its lowest nibble (R14, R83). -/
def nibbles (a b c d : Nat) : Word := BitVec.ofNat 16 (a * 4096 + b * 256 + c * 16 + d)

/-- Format A: `op nnn` (R83). -/
def encodeA (op : Nat) (nnn : Addr12) : Word := nibbles op 0 0 nnn.toNat

/-- Format XNN: `op x nn` (R83). -/
def encodeXNN (op : Nat) (x : Reg) (nn : Byte) : Word := nibbles op x.val 0 nn.toNat

/-- Formats XY and XYN: `op x y` and a last nibble (R83). -/
def encodeXYN (op : Nat) (x y : Reg) (n : Nat) : Word := nibbles op x.val y.val n

/-- Format X: `op x` and a sub-opcode byte (R83). -/
def encodeX (op : Nat) (x : Reg) (sub : Nat) : Word := nibbles op x.val 0 sub

/-- The word of an instruction (R85). -/
def encode : Instr → Word
  | .cls => nibbles 0x0 0x0 0xE 0x0
  | .ret => nibbles 0x0 0x0 0xE 0xE
  | .jpNnn nnn => encodeA 0x1 nnn
  | .callNnn nnn => encodeA 0x2 nnn
  | .seVxNn x nn => encodeXNN 0x3 x nn
  | .sneVxNn x nn => encodeXNN 0x4 x nn
  | .seVxVy x y => encodeXYN 0x5 x y 0x0
  | .sneVxVy x y => encodeXYN 0x9 x y 0x0
  | .ldVxNn x nn => encodeXNN 0x6 x nn
  | .addVxNn x nn => encodeXNN 0x7 x nn
  | .ldVxVy x y => encodeXYN 0x8 x y 0x0
  | .orVxVy x y => encodeXYN 0x8 x y 0x1
  | .andVxVy x y => encodeXYN 0x8 x y 0x2
  | .xorVxVy x y => encodeXYN 0x8 x y 0x3
  | .addVxVy x y => encodeXYN 0x8 x y 0x4
  | .subVxVy x y => encodeXYN 0x8 x y 0x5
  | .shrVx x y => encodeXYN 0x8 x y 0x6
  | .subnVxVy x y => encodeXYN 0x8 x y 0x7
  | .shlVx x y => encodeXYN 0x8 x y 0xE
  | .ldINnn nnn => encodeA 0xA nnn
  | .jpV0Nnn nnn => encodeA 0xB nnn
  | .rndVxNn x nn => encodeXNN 0xC x nn
  | .drwVxVyN x y n => encodeXYN 0xD x y n
  | .skpVx x => encodeX 0xE x 0x9E
  | .sknpVx x => encodeX 0xE x 0xA1
  | .ldVxDt x => encodeX 0xF x 0x07
  | .ldVxK x => encodeX 0xF x 0x0A
  | .ldDtVx x => encodeX 0xF x 0x15
  | .ldStVx x => encodeX 0xF x 0x18
  | .addIVx x => encodeX 0xF x 0x1E
  | .ldFVx x => encodeX 0xF x 0x29
  | .ldBVx x => encodeX 0xF x 0x33
  | .ldMemIVx x => encodeX 0xF x 0x55
  | .ldVxMemI x => encodeX 0xF x 0x65

/-- The bytes of an instruction in the order they lie in memory (R56). -/
def encodeBytes (i : Instr) : List Byte := [hiByte (encode i), loByte (encode i)]

/-! ### The opcode map (R85) -/

/-- One row of the opcode map: a word matches it when `w & mask = match` (R84). -/
structure OpcodeRow where
  mnemonic : String
  mask : Word
  matchBits : Word
  deriving DecidableEq, Repr

/-- `(w & mask_r) == match_r` (R84). -/
def OpcodeRow.hits (r : OpcodeRow) (w : Word) : Bool := w &&& r.mask == r.matchBits

/-- Rows 1 to 8 of R85: display clear and control transfer. -/
def opcodeRowsControl : List OpcodeRow := [
  ⟨"CLS", 0xFFFF, 0x00E0⟩, ⟨"RET", 0xFFFF, 0x00EE⟩, ⟨"JP_nnn", 0xF000, 0x1000⟩, ⟨"CALL_nnn", 0xF000, 0x2000⟩,
  ⟨"SE_Vx__nn", 0xF000, 0x3000⟩, ⟨"SNE_Vx__nn", 0xF000, 0x4000⟩, ⟨"SE_Vx__Vy", 0xF00F, 0x5000⟩,
  ⟨"SNE_Vx__Vy", 0xF00F, 0x9000⟩]

/-- Rows 9 to 19 of R85: register arithmetic. -/
def opcodeRowsAlu : List OpcodeRow := [
  ⟨"LD_Vx__nn", 0xF000, 0x6000⟩, ⟨"ADD_Vx__nn", 0xF000, 0x7000⟩, ⟨"LD_Vx__Vy", 0xF00F, 0x8000⟩,
  ⟨"OR_Vx__Vy", 0xF00F, 0x8001⟩, ⟨"AND_Vx__Vy", 0xF00F, 0x8002⟩, ⟨"XOR_Vx__Vy", 0xF00F, 0x8003⟩,
  ⟨"ADD_Vx__Vy", 0xF00F, 0x8004⟩, ⟨"SUB_Vx__Vy", 0xF00F, 0x8005⟩, ⟨"SHR_Vx", 0xF00F, 0x8006⟩,
  ⟨"SUBN_Vx__Vy", 0xF00F, 0x8007⟩, ⟨"SHL_Vx", 0xF00F, 0x800E⟩]

/-- Rows 20 to 25 of R85. -/
def opcodeRowsMiddle : List OpcodeRow := [
  ⟨"LD_I__nnn", 0xF000, 0xA000⟩, ⟨"JP_V0__nnn", 0xF000, 0xB000⟩, ⟨"RND_Vx__nn", 0xF000, 0xC000⟩,
  ⟨"DRW_Vx__Vy__n", 0xF000, 0xD000⟩, ⟨"SKP_Vx", 0xF0FF, 0xE09E⟩, ⟨"SKNP_Vx", 0xF0FF, 0xE0A1⟩]

/-- Rows 26 to 34 of R85. -/
def opcodeRowsF : List OpcodeRow := [
  ⟨"LD_Vx__DT", 0xF0FF, 0xF007⟩, ⟨"LD_Vx__K", 0xF0FF, 0xF00A⟩, ⟨"LD_DT__Vx", 0xF0FF, 0xF015⟩,
  ⟨"LD_ST__Vx", 0xF0FF, 0xF018⟩, ⟨"ADD_I__Vx", 0xF0FF, 0xF01E⟩, ⟨"LD_F__Vx", 0xF0FF, 0xF029⟩,
  ⟨"LD_B__Vx", 0xF0FF, 0xF033⟩, ⟨"LD__I___Vx", 0xF0FF, 0xF055⟩, ⟨"LD_Vx___I", 0xF0FF, 0xF065⟩]

/-- The whole opcode map (R85), its mnemonics spelled as spec/opcode_table.json spells them. The decoder above is
written from the same map by major opcode; that the two agree is a statement, not an assumption. -/
def opcodeMap : List OpcodeRow := opcodeRowsControl ++ opcodeRowsAlu ++ opcodeRowsMiddle ++ opcodeRowsF

/-- The row an instruction stands for, by its number in R85 less one. -/
def Instr.rowIndex : Instr → Nat
  | .cls => 0
  | .ret => 1
  | .jpNnn _ => 2
  | .callNnn _ => 3
  | .seVxNn _ _ => 4
  | .sneVxNn _ _ => 5
  | .seVxVy _ _ => 6
  | .sneVxVy _ _ => 7
  | .ldVxNn _ _ => 8
  | .addVxNn _ _ => 9
  | .ldVxVy _ _ => 10
  | .orVxVy _ _ => 11
  | .andVxVy _ _ => 12
  | .xorVxVy _ _ => 13
  | .addVxVy _ _ => 14
  | .subVxVy _ _ => 15
  | .shrVx _ _ => 16
  | .subnVxVy _ _ => 17
  | .shlVx _ _ => 18
  | .ldINnn _ => 19
  | .jpV0Nnn _ => 20
  | .rndVxNn _ _ => 21
  | .drwVxVyN _ _ _ => 22
  | .skpVx _ => 23
  | .sknpVx _ => 24
  | .ldVxDt _ => 25
  | .ldVxK _ => 26
  | .ldDtVx _ => 27
  | .ldStVx _ => 28
  | .addIVx _ => 29
  | .ldFVx _ => 30
  | .ldBVx _ => 31
  | .ldMemIVx _ => 32
  | .ldVxMemI _ => 33

end Sys2Proof
end

