-- ==== Sys2Proof/Config.lean ====
section
/-! DEFINITION. The parameters the spec says the model takes (00_scope.md R8 to R13, 20_memory.md R52), and the
free values of the environment (R34, R154, R210). The defaults this hardware takes are in Machine/Params.lean. -/

namespace Sys2Proof

/-- What a fetch at an odd PC does (R13, R101). -/
inductive OddPcPolicy where
  | fault
  | fetch
  deriving DecidableEq, Repr

/-- One glyph: five sprite rows (R52). -/
abbrev Glyph := Vector Byte 5

/-- The parameters. The three proofs hold the ranges the spec admits: SPEED at least 1 (R8), each display
dimension at least 1 (R10). -/
structure Config where
  speed : Nat
  speed_pos : 1 ≤ speed
  stackDepth : Nat
  displayW : Nat
  displayW_pos : 1 ≤ displayW
  displayH : Nat
  displayH_pos : 1 ≤ displayH
  protectReserved : Bool
  oddPcPolicy : OddPcPolicy
  glyphs : Vector Glyph 16
  deriving DecidableEq, Repr

/-- The random byte of draw number `n`, where the environment has not already chosen it: any value 0..255
(R154, U5, [log 8]). It has no body, so no proof can know it. -/
opaque Config.freeRandByte : Nat → Byte

/-- The answer to key query number `n` for a key code, where the environment has not already chosen it: any Boolean,
for codes above 15 too (R210, U6, U7, [log 9]). -/
opaque Config.freeKeyLevel : Nat → Byte → Bool

end Sys2Proof
end

