-- ==== Sys2Proof/Machine/Params.lean ====
section
/-! DEFINITION. The constants of the hardware and the default values of its parameters (00_scope.md R5 to R13,
20_memory.md R52). -/

namespace Sys2Proof.Machine

/-- MEM_SIZE (R5). -/
def memSize : Nat := 4096

/-- PROG_BASE: where a program starts and PC's reset value (R7). -/
def progBase : Nat := 0x200

/-- MAX_PROG = 4096 − 0x200 (R7). -/
def maxProg : Nat := 3584

/-- TONE_HZ (R11). -/
def toneHz : Nat := 440

/-- The bytes of the glyphs of digits 0 to 7 (R52). -/
def glyphsLow : List Glyph := [
  #v[0xF0, 0x90, 0x90, 0x90, 0xF0], #v[0x20, 0x60, 0x20, 0x20, 0x70],
  #v[0xF0, 0x10, 0xF0, 0x80, 0xF0], #v[0xF0, 0x10, 0xF0, 0x10, 0xF0],
  #v[0x90, 0x90, 0xF0, 0x10, 0x10], #v[0xF0, 0x80, 0xF0, 0x10, 0xF0],
  #v[0xF0, 0x80, 0xF0, 0x90, 0xF0], #v[0xF0, 0x10, 0x20, 0x40, 0x40]]

/-- The bytes of the glyphs of digits 8 to F (R52). -/
def glyphsHigh : List Glyph := [
  #v[0xF0, 0x90, 0xF0, 0x90, 0xF0], #v[0xF0, 0x90, 0xF0, 0x10, 0xF0],
  #v[0xF0, 0x90, 0xF0, 0x90, 0x90], #v[0xE0, 0x90, 0xE0, 0x90, 0xE0],
  #v[0xF0, 0x80, 0x80, 0x80, 0xF0], #v[0xE0, 0x90, 0x90, 0x90, 0xE0],
  #v[0xF0, 0x80, 0xF0, 0x80, 0xF0], #v[0xF0, 0x80, 0xF0, 0x80, 0x80]]

/-- The default GLYPHS, digits 0 to F in order (R52). -/
def defaultGlyphs : Vector Glyph 16 := ⟨(glyphsLow ++ glyphsHigh).toArray, rfl⟩

/-- The parameters at the values this hardware takes (R8, R9, R10, R12, R13, R52). -/
def hardwareConfig : Config where
  speed := 10
  speed_pos := by decide
  stackDepth := 16
  displayW := 64
  displayW_pos := by decide
  displayH := 32
  displayH_pos := by decide
  protectReserved := true
  oddPcPolicy := .fault
  glyphs := defaultGlyphs

end Sys2Proof.Machine
end

