-- ==== Sys2Proof/Machine/State.lean ====
section
/-! DEFINITION. The state of the machine as plain data, the reasons a step can stop, and the state after reset
(10_state.md R20 to R35; 70_reset_and_hazards.md R262). -/

namespace Sys2Proof.Machine

/-- The fault codes (R231). The first five enter HALTED; LOAD_ERROR is signalled on its own port and never stands in a
fault record (R261). Their numbers 1 to 6 are `FaultCode.number`. -/
inductive FaultCode where
  | unknownOpcode
  | addressError
  | stackUnderflow
  | stackOverflow
  | pcAlignment
  | loadError
  deriving DecidableEq, Repr

/-- The fault record (R30): the code, the address of the instruction that faulted, its word (none when the fetch
itself faulted), and the offending memory address of an ADDRESS_ERROR. -/
structure FaultRecord where
  code : FaultCode
  pc : Word
  word : Option Word
  addr : Option Nat
  deriving DecidableEq, Repr

/-- The execution state EXEC (R29). -/
inductive ExecState where
  | running
  | awaitingKey (x : Reg)
  | halted (f : FaultRecord)
  | idle
  deriving DecidableEq, Repr

/-- The audio output AUDIO: the last signal sent (R33). -/
inductive Audio where
  | playing
  | stopped
  deriving DecidableEq, Repr

/-- The three external events (R100). A key code is 0..15, and no event with another code exists. -/
inductive Event where
  | tick
  | key (k : Fin 16)
  | load (bytes : List Byte)
  deriving DecidableEq, Repr

/-- A call on one of the output ports of R239. -/
inductive Call where
  | displayClear
  | displaySetPixel (x y : Nat) (erased : Bool)
  | displayRender
  | audioPlay (hz : Nat)
  | audioStop
  | loadError
  deriving DecidableEq, Repr

/-- Where the scheduler stands: between two events, or inside a tick whose burst has run `done` instructions, the
variable `i` of R105 [log 6]. -/
inductive Phase where
  | between
  | burst (done : Nat)
  deriving DecidableEq, Repr

/-- The machine. The first eleven fields after `cfg` are the state the spec gives it (R20 to R33); `cfg` is its
parameters (R8 to R13), and the last seven are the model's own [log 1, 6, 7, 8, 9, 10]. -/
structure State where
  /-- The parameters; no step changes them. -/
  cfg : Config
  /-- V0..VF (R20). -/
  v : Vector Byte 16
  /-- The index register I (R22). -/
  i : Word
  /-- The program counter (R23). -/
  pc : Word
  /-- The call-stack entries held, the top first (R24) [log 5]. -/
  stack : List Word
  /-- The delay timer (R27). -/
  dt : Byte
  /-- The sound timer (R28). -/
  st : Byte
  /-- EXEC with its fault record (R29, R30). The `status` port shows it by `State.status` (R244). -/
  execState : ExecState
  /-- The memory cells that differ from the reset content, addresses strictly rising (R31) [log 2]. -/
  mem : List Host.Cell
  /-- The set pixels `(px, py)`, in rising order of row and then column (R32) [log 11]. -/
  fb : List (Nat × Nat)
  /-- AUDIO (R33). -/
  audio : Audio
  /-- Where the scheduler stands (R105) [log 6]. -/
  phase : Phase
  /-- The events still to come, oldest first (R100) [log 7]. -/
  events : List Event
  /-- Random bytes the environment has already chosen (R34) [log 8]. -/
  randFeed : List Byte
  /-- How many random bytes have been drawn [log 8]. -/
  randCount : Nat
  /-- Key answers the environment has already chosen (R34) [log 9]. -/
  keyFeed : List Bool
  /-- How many key queries have been made [log 9]. -/
  keyCount : Nat
  /-- The calls made on the output ports, newest first (R239) [log 10]. -/
  calls : List Call
  deriving DecidableEq, Repr

/-- The reasons a step stops the model with a fault: none. Every fatal error of the spec has an entry the spec
describes, HALTED (R234), which is a next state [log 12]. -/
inductive Fault where
  deriving DecidableEq, Repr

/-- The reasons the model refuses a step. -/
inductive Refusal where
  /-- Raised by an arm of `exec` whose instruction has no meaning yet; safe. No arm does so. -/
  | notModelled (mnemonic : String)
  deriving DecidableEq, Repr

/-- What an instruction or a step answers. -/
abbrev Result := Host.Outcome State Fault Refusal

/-- SP: how many entries the call stack holds (R24) [log 5]. -/
def State.sp (s : State) : Nat := s.stack.length

/-- The machine right after the reset sequence of R262, with no program byte placed [log 3, 4]. -/
def State.reset : State where
  cfg := hardwareConfig
  v := Vector.replicate 16 0
  i := 0
  pc := 0x200
  stack := []
  dt := 0
  st := 0
  execState := .running
  mem := []
  fb := []
  audio := .stopped
  phase := .between
  events := []
  randFeed := []
  randCount := 0
  keyFeed := []
  keyCount := 0
  calls := []

/-- The machine at power-on: EXEC = IDLE, and every other element, which R260 leaves unspecified and no event can
observe, at its reset value [log 3]. -/
def State.powerOn : State := { State.reset with execState := .idle }

end Sys2Proof.Machine
end

