-- ==== Sys2Proof/Machine/Ops.lean ====
section
/-! DEFINITION. The named operations over the state: field updates, registers, memory, the call stack, the
framebuffer, the environment's answers, and fault entry. -/

namespace Sys2Proof.Machine

/-! ### Registers and field updates (R16, R20) -/

/-- VF is V15 (R21). -/
def vf : Reg := 15

/-- `V[x]` (R16). -/
def State.reg (s : State) (x : Reg) : Byte := s.v[x.val]

/-- `V[x] <- b` (R16). -/
def State.setReg (s : State) (x : Reg) (b : Byte) : State := { s with v := s.v.set x.val b }

/-- `I <- w` (R16). -/
def State.setI (s : State) (w : Word) : State := { s with i := w }

/-- `PC <- w` (R16). -/
def State.setPc (s : State) (w : Word) : State := { s with pc := w }

/-- The call stack replaced (R24). -/
def State.setStack (s : State) (ws : List Word) : State := { s with stack := ws }

/-- `DT <- b` (R16). -/
def State.setDt (s : State) (b : Byte) : State := { s with dt := b }

/-- `ST <- b` (R16). -/
def State.setSt (s : State) (b : Byte) : State := { s with st := b }

/-- `EXEC <- e` (R29). -/
def State.setExec (s : State) (e : ExecState) : State := { s with execState := e }

/-- The memory replaced. -/
def State.setMem (s : State) (m : List Host.Cell) : State := { s with mem := m }

/-- The framebuffer replaced. -/
def State.setFb (s : State) (ps : List (Nat × Nat)) : State := { s with fb := ps }

/-- AUDIO <- a (R219). -/
def State.setAudio (s : State) (a : Audio) : State := { s with audio := a }

/-- The scheduler's place replaced [log 6]. -/
def State.setPhase (s : State) (p : Phase) : State := { s with phase := p }

/-- The events still to come replaced [log 7]. -/
def State.setEvents (s : State) (es : List Event) : State := { s with events := es }

/-- One more call on an output port (R239) [log 10]. -/
def State.addCall (s : State) (c : Call) : State := { s with calls := c :: s.calls }

/-! ### The program counter (R102, R128) -/

/-- The advance of R102: `PC <- a + 2`, made before an instruction's effect. -/
def State.advance (s : State) : State := s.setPc (s.pc + 2)

/-- The skip law of R128: `PC <- PC + 2` in addition to the advance, when the condition holds. -/
def State.skipIf (s : State) (c : Bool) : State := if c then s.setPc (s.pc + 2) else s

/-! ### Memory (R31, R50 to R55) -/

/-- The reset content of a byte: the glyph table at 0x000..0x04F, glyph `d` row `r` at `d*5 + r` (R52, R65), and 0
elsewhere (R31). It is what an address with no cell reads as [log 2]. -/
def resetByte (cfg : Config) (a : Nat) : Byte :=
  if h : a < 80 then (cfg.glyphs[a / 5])[a % 5] else 0

/-- The cell of an address, if the list has one. -/
def Memory.lookup : List Host.Cell → Nat → Option Byte
  | [], _ => none
  | (b, v) :: m, a => if b = a then some v else Memory.lookup m a

/-- Put a cell in its place in a rising list, in place of the cell of its address. -/
def Memory.insert : List Host.Cell → Nat → Byte → List Host.Cell
  | [], a, v => [(a, v)]
  | (b, w) :: m, a, v =>
    if a < b then (a, v) :: (b, w) :: m
    else if a = b then (a, v) :: m
    else (b, w) :: Memory.insert m a v

/-- Take an address's cell out of the list. -/
def Memory.erase (m : List Host.Cell) (a : Nat) : List Host.Cell := m.filter (fun c => c.1 ≠ a)

/-- The byte at an address. -/
def Memory.read (cfg : Config) (m : List Host.Cell) (a : Nat) : Byte :=
  (Memory.lookup m a).getD (resetByte cfg a)

/-- The byte at an address replaced, in canonical form: a byte equal to the reset content is not listed. -/
def Memory.write (cfg : Config) (m : List Host.Cell) (a : Nat) (v : Byte) : List Host.Cell :=
  if v = resetByte cfg a then Memory.erase m a else Memory.insert m a v

/-- The canonical form: addresses strictly rising, inside the 4096 bytes (R50), no cell equal to the reset content. -/
abbrev Memory.wf (cfg : Config) (m : List Host.Cell) : Prop :=
  m.Pairwise (fun c d => c.1 < d.1) ∧ ∀ c ∈ m, c.1 < memSize ∧ c.2 ≠ resetByte cfg c.1

/-- `M[a]`. -/
def State.readByte (s : State) (a : Nat) : Byte := Memory.read s.cfg s.mem a

/-- `M[a] <- v`. -/
def State.writeByte (s : State) (a : Nat) (v : Byte) : State := s.setMem (Memory.write s.cfg s.mem a v)

/-- The check of MemRead (R53): the address is not above 0xFFF. -/
def State.canRead (_s : State) (a : Nat) : Bool := decide (a ≤ 0xFFF)

/-- The checks of MemWrite (R54): the address is not above 0xFFF and, with PROTECT_RESERVED, not below 0x200. -/
def State.canWrite (s : State) (a : Nat) : Bool :=
  decide (a ≤ 0xFFF) && !(s.cfg.protectReserved && decide (a < 0x200))

/-- `MemRead(a, 1)`: the byte, or the address of an ADDRESS_ERROR (R53). -/
def State.memRead (s : State) (a : Nat) : Except Nat Byte :=
  if s.canRead a then .ok (s.readByte a) else .error a

/-- The first of the `n` addresses from `base` up that fails a check (R59). -/
def firstFailing (ok : Nat → Bool) (base : Nat) : Nat → Option Nat
  | 0 => none
  | n + 1 => if ok base then firstFailing ok (base + 1) n else some base

/-- The bytes written to consecutive addresses from `base` up, in ascending order. -/
def State.storeBytes (s : State) (base : Nat) : List Byte → State
  | [] => s
  | b :: bs => (s.writeByte base b).storeBytes (base + 1) bs

/-! ### Fault entry (R104, R234) -/

/-- FAULT(code, info): the step commits nothing, PC keeps the faulting instruction's address, and EXEC <- HALTED(f).
`s` is the state before the instruction's fetch. There is no handler and no return from a fault: HALTED is left by
an accepted LOAD alone (R230, R235). -/
def State.raise (s : State) (code : FaultCode) (word : Option Word) (addr : Option Nat) : Result :=
  .next (s.setExec (.halted ⟨code, s.pc, word, addr⟩))

/-- The numeric code of a fault (R231), as the `status` port shows it (R244). -/
def FaultCode.number : FaultCode → Nat
  | .unknownOpcode => 1
  | .addressError => 2
  | .stackUnderflow => 3
  | .stackOverflow => 4
  | .pcAlignment => 5
  | .loadError => 6

/-- What the `status` port shows (R239, R244): EXEC, and in HALTED the fault record with its code as a number (R30,
R231). -/
inductive Status where
  | running
  | awaitingKey (x : Reg)
  | halted (code : Nat) (pc : Word) (word : Option Word) (addr : Option Nat)
  | idle
  deriving DecidableEq, Repr

/-- The level of the `status` port: a view of EXEC, not state of its own (R244). -/
def State.status (s : State) : Status :=
  match s.execState with
  | .running => .running
  | .awaitingKey x => .awaitingKey x
  | .halted f => .halted f.code.number f.pc f.word f.addr
  | .idle => .idle

/-! ### The call stack (R24 to R26) -/

/-- `Push(v)`; none is STACK_OVERFLOW (R25). -/
def State.push (s : State) (w : Word) : Option State :=
  if s.sp < s.cfg.stackDepth then some (s.setStack (w :: s.stack)) else none

/-- `Pop()`: the top entry and the state without it; none is STACK_UNDERFLOW (R26). -/
def State.pop (s : State) : Option (Word × State) :=
  match s.stack with
  | [] => none
  | w :: ws => some (w, s.setStack ws)

/-! ### The framebuffer (R190 to R192) -/

/-- The order in which set pixels are listed: by row, then by column [log 11]. -/
abbrev pixelBefore (p q : Nat × Nat) : Prop := p.2 < q.2 ∨ (p.2 = q.2 ∧ p.1 < q.1)

/-- Put a pixel in its place in the list. -/
def Framebuffer.insert (p : Nat × Nat) : List (Nat × Nat) → List (Nat × Nat)
  | [] => [p]
  | q :: qs => if pixelBefore p q then p :: q :: qs else q :: Framebuffer.insert p qs

/-- `FB[px][py] <- not FB[px][py]` (R192). -/
def Framebuffer.toggle (fb : List (Nat × Nat)) (p : Nat × Nat) : List (Nat × Nat) :=
  if p ∈ fb then fb.filter (fun q => q ≠ p) else Framebuffer.insert p fb

/-- The canonical form: pixels in strictly rising order, each inside the display (R190). -/
abbrev Framebuffer.wf (cfg : Config) (fb : List (Nat × Nat)) : Prop :=
  fb.Pairwise pixelBefore ∧ ∀ p ∈ fb, p.1 < cfg.displayW ∧ p.2 < cfg.displayH

/-- `FB[px][py]`. -/
def State.pixel (s : State) (px py : Nat) : Bool := decide ((px, py) ∈ s.fb)

/-- `Display.clear()`: every pixel unset (R191). -/
def State.displayClear (s : State) : State := (s.setFb []).addCall .displayClear

/-- The pixel that coordinates name: each "wrapped modulo display width/height" (R192). -/
def wrapPixel (cfg : Config) (p : Nat × Nat) : Nat × Nat := (p.1 % cfg.displayW, p.2 % cfg.displayH)

/-- `Display.setPixel(x, y)`: the state after it and its answer, true iff the pixel became unset (R192). -/
def State.setPixel (s : State) (x y : Nat) : State × Bool :=
  let p := wrapPixel s.cfg (x, y)
  let old := s.pixel p.1 p.2
  ((s.setFb (Framebuffer.toggle s.fb p)).addCall (.displaySetPixel x y old), old)

/-- One `setPixel` call for each point, in order, and whether any of them answered true (R195). -/
def State.plot (s : State) : List (Nat × Nat) → State × Bool
  | [] => (s, false)
  | (x, y) :: ps => (((s.setPixel x y).1.plot ps).1, (s.setPixel x y).2 || ((s.setPixel x y).1.plot ps).2)

/-! ### What the environment answers (R34) -/

/-- `RandByte()`: the next answer already chosen, or else a free value (R154) [log 8]. -/
def State.randByte (s : State) : Byte :=
  match s.randFeed with
  | r :: _ => r
  | [] => Config.freeRandByte s.randCount

/-- The state after a draw [log 8]. -/
def State.drawn (s : State) : State := { s with randFeed := s.randFeed.tail, randCount := s.randCount + 1 }

/-- `Input.isKeyPressed(k)`: the next answer already chosen, or else a free value, for any code (R210) [log 9]. -/
def State.isKeyPressed (s : State) (k : Byte) : Bool :=
  match s.keyFeed with
  | b :: _ => b
  | [] => Config.freeKeyLevel s.keyCount k

/-- The state after a key query [log 9]. -/
def State.queried (s : State) : State := { s with keyFeed := s.keyFeed.tail, keyCount := s.keyCount + 1 }

end Sys2Proof.Machine
end

