-- ==== Sys2Proof/Machine/Flags.lean ====
section
/-! DEFINITION. Every value an instruction writes to VF as a flag (10_state.md R21; 42_alu.md R142, R149 to R153;
44_display.md R195). -/

namespace Sys2Proof.Machine

/-- `b ? 1 : 0` (R15). -/
def bitOf (b : Bool) : Byte := if b then 1 else 0

/-- The carry of ADD: `sum > 255` (R149). -/
def carryFlag (vx vy : Byte) : Byte := bitOf (decide (vx.toNat + vy.toNat > 255))

/-- Not borrow of `a - b`: `a > b`, "strict greater-than, not ≥" (R150, R152). -/
def notBorrowFlag (a b : Byte) : Byte := bitOf (decide (a.toNat > b.toNat))

/-- The bit SHR shifts out: "pre-shift LSB" (R151). -/
def shiftedOutRight (vx : Byte) : Byte := BitVec.ofNat 8 (vx.toNat % 2)

/-- The bit SHL shifts out: "pre-shift MSB", `(vx >> 7) & 1` (R153). -/
def shiftedOutLeft (vx : Byte) : Byte := BitVec.ofNat 8 (vx.toNat / 128 % 2)

/-- The collision bit of DRW: some `setPixel` call answered true (R195). -/
def collisionFlag (erased : Bool) : Byte := bitOf erased

/-- The flag first and the result second, so that with `x = 0xF` VF ends as the result (R142). -/
def State.setFlagThenResult (s : State) (x : Reg) (flag result : Byte) : State :=
  (s.setReg vf flag).setReg x result

end Sys2Proof.Machine
end

