-- ==== Sys2Proof/Machine/Alu.lean ====
section
/-! DEFINITION. Register arithmetic, logic, shifts and random (42_alu.md R140 to R154). Every source operand is read
from the state before the instruction (R141), and none of these instructions can fault (R232). -/

namespace Sys2Proof.Machine

/-- `LD Vx, nn` (R143). -/
def execLdVxNn (x : Reg) (nn : Byte) (s : State) : Result :=
  .next (s.advance.setReg x nn)

/-- `ADD Vx, nn` (R144): mod 256, no flag. -/
def execAddVxNn (x : Reg) (nn : Byte) (s : State) : Result :=
  .next (s.advance.setReg x (s.reg x + nn))

/-- `LD Vx, Vy` (R145). -/
def execLdVxVy (x y : Reg) (s : State) : Result :=
  .next (s.advance.setReg x (s.reg y))

/-- `OR Vx, Vy` (R146): no flag. -/
def execOrVxVy (x y : Reg) (s : State) : Result :=
  .next (s.advance.setReg x (s.reg x ||| s.reg y))

/-- `AND Vx, Vy` (R147): no flag. -/
def execAndVxVy (x y : Reg) (s : State) : Result :=
  .next (s.advance.setReg x (s.reg x &&& s.reg y))

/-- `XOR Vx, Vy` (R148): no flag. -/
def execXorVxVy (x y : Reg) (s : State) : Result :=
  .next (s.advance.setReg x (s.reg x ^^^ s.reg y))

/-- `ADD Vx, Vy` (R149): VF is the carry. -/
def execAddVxVy (x y : Reg) (s : State) : Result :=
  .next (s.advance.setFlagThenResult x (carryFlag (s.reg x) (s.reg y)) (s.reg x + s.reg y))

/-- `SUB Vx, Vy` (R150): VF is not borrow. -/
def execSubVxVy (x y : Reg) (s : State) : Result :=
  .next (s.advance.setFlagThenResult x (notBorrowFlag (s.reg x) (s.reg y)) (s.reg x - s.reg y))

/-- `SHR Vx` (R151): Vy is ignored; VF is the bit shifted out. -/
def execShrVx (x : Reg) (s : State) : Result :=
  .next (s.advance.setFlagThenResult x (shiftedOutRight (s.reg x)) (s.reg x >>> 1))

/-- `SUBN Vx, Vy` (R152): VF is not borrow of `vy - vx`. -/
def execSubnVxVy (x y : Reg) (s : State) : Result :=
  .next (s.advance.setFlagThenResult x (notBorrowFlag (s.reg y) (s.reg x)) (s.reg y - s.reg x))

/-- `SHL Vx` (R153): Vy is ignored; VF is the bit shifted out. -/
def execShlVx (x : Reg) (s : State) : Result :=
  .next (s.advance.setFlagThenResult x (shiftedOutLeft (s.reg x)) (s.reg x <<< 1))

/-- `RND Vx, nn` (R154): `V[x] <- RandByte() & nn`. -/
def execRndVxNn (x : Reg) (nn : Byte) (s : State) : Result :=
  .next (s.advance.drawn.setReg x (s.randByte &&& nn))

end Sys2Proof.Machine
end

