-- ==== Sys2Proof/Machine/Operands.lean ====
section
/-! DEFINITION. The operand forms: effective addresses, zero extension, register blocks, decimal digits and sprite
points (R55, R82, R173 to R175, R195, R196). -/

namespace Sys2Proof.Machine

/-- `zext_16(nnn)` (R15, R82). -/
def zextAddr (nnn : Addr12) : Word := BitVec.ofNat 16 nnn.toNat

/-- `zext_16` of a byte (R15). -/
def zextByte (b : Byte) : Word := BitVec.ofNat 16 b.toNat

/-- `EA(k) = (I & 0x0FFF) + k`, a natural number that is not reduced (R55). -/
def State.ea (s : State) (k : Nat) : Nat := s.i.toNat % 4096 + k

/-- The first of `EA(0) .. EA(n-1)` that cannot be read (R53, R59). -/
def State.badRead (s : State) (n : Nat) : Option Nat := firstFailing s.canRead (s.ea 0) n

/-- The first of `EA(0) .. EA(n-1)` that cannot be written (R54, R59). -/
def State.badWrite (s : State) (n : Nat) : Option Nat := firstFailing s.canWrite (s.ea 0) n

/-- The sixteen registers in order (R20). -/
def allRegs : List Reg := [0, 1, 2, 3, 4, 5, 6, 7, 8, 9, 10, 11, 12, 13, 14, 15]

/-- V0..Vx as a block, `x` inclusive (R174, R175). -/
def regsUpTo (x : Reg) : List Reg := allRegs.filter (fun k => k ≤ x)

/-- The values of V0..Vx, the byte of V_k for `EA(k)` (R56, R174). -/
def State.regBytes (s : State) (x : Reg) : List Byte := (regsUpTo x).map s.reg

/-- `V[k] <- M[EA(k)]` for each register of a list, in order (R175). -/
def State.loadRegs (s : State) : List Reg → State
  | [] => s
  | k :: ks => (s.setReg k (s.readByte (s.ea k.val))).loadRegs ks

/-- The decimal digits of a byte, the hundreds first, by floor division (R56, R173). -/
def bcdDigits (b : Byte) : List Byte :=
  [BitVec.ofNat 8 (b.toNat / 100), BitVec.ofNat 8 (b.toNat / 10 % 10), BitVec.ofNat 8 (b.toNat % 10)]

/-- `(row >> (7 - c)) & 1`: column `c` of a sprite row, bit 7 being column 0 (R195, R196). -/
def spriteBit (row : Byte) (c : Nat) : Bool := decide (row.toNat / 2 ^ (7 - c) % 2 = 1)

/-- The points of one sprite row drawn from `(x, y)`: its 1 bits, in ascending column, exactly 8 columns (R195). -/
def spriteRowPoints (x y : Nat) (row : Byte) : List (Nat × Nat) :=
  ((List.range 8).filter (spriteBit row)).map (fun c => (x + c, y))

/-- The points of a sprite drawn from `(x, y)`, row after row (R195). -/
def spritePoints (x y : Nat) : List Byte → List (Nat × Nat)
  | [] => []
  | row :: rows => spriteRowPoints x y row ++ spritePoints x (y + 1) rows

/-- The rows of an `n`-row sprite: `M[EA(0)] .. M[EA(n-1)]` (R195). -/
def State.spriteRows (s : State) (n : Nat) : List Byte := (List.range n).map (fun r => s.readByte (s.ea r))

end Sys2Proof.Machine
end

