-- ==== Sys2Proof/Machine/Control.lean ====
section
/-! DEFINITION. Control transfer: returns, jumps, calls and register skips (41_control.md R120 to R129). Every meaning
takes the state with PC = a, the instruction's own address, and advances it first (R102). -/

namespace Sys2Proof.Machine

/-- `RET` (R120): `PC <- Pop()`; STACK_UNDERFLOW on an empty stack. -/
def execRet (s : State) : Result :=
  match s.advance.pop with
  | some (w, t) => .next (t.setPc w)
  | none => s.raise .stackUnderflow (some (encode .ret)) none

/-- `JP nnn` (R121): `PC <- zext_16(nnn)`; the target is not checked (R129). -/
def execJpNnn (nnn : Addr12) (s : State) : Result :=
  .next (s.advance.setPc (zextAddr nnn))

/-- `CALL nnn` (R122): push the advanced PC, then jump; STACK_OVERFLOW on a full stack. -/
def execCallNnn (nnn : Addr12) (s : State) : Result :=
  match s.advance.push s.advance.pc with
  | some t => .next (t.setPc (zextAddr nnn))
  | none => s.raise .stackOverflow (some (encode (.callNnn nnn))) none

/-- `SE Vx, nn` (R123). -/
def execSeVxNn (x : Reg) (nn : Byte) (s : State) : Result :=
  .next (s.advance.skipIf (s.reg x == nn))

/-- `SNE Vx, nn` (R124). -/
def execSneVxNn (x : Reg) (nn : Byte) (s : State) : Result :=
  .next (s.advance.skipIf (s.reg x != nn))

/-- `SE Vx, Vy` (R125). -/
def execSeVxVy (x y : Reg) (s : State) : Result :=
  .next (s.advance.skipIf (s.reg x == s.reg y))

/-- `SNE Vx, Vy` (R126). -/
def execSneVxVy (x y : Reg) (s : State) : Result :=
  .next (s.advance.skipIf (s.reg x != s.reg y))

/-- `JP V0, nnn` (R127): `PC <- zext_16(nnn) + V[0]`, not reduced mod 4096. -/
def execJpV0Nnn (nnn : Addr12) (s : State) : Result :=
  .next (s.advance.setPc (zextAddr nnn + zextByte (s.reg 0)))

end Sys2Proof.Machine
end

