-- ==== Sys2Proof/Machine/Display.lean ====
section
/-! DEFINITION. Clear and sprite draw (44_display.md R194 to R196). -/

namespace Sys2Proof.Machine

/-- `CLS` (R194): `Display.clear()`; VF is not written. -/
def execCls (s : State) : Result :=
  .next s.advance.displayClear

/-- `DRW Vx, Vy, n` (R195): one `setPixel` for each 1 bit of the rows at `EA(0) .. EA(n-1)`, drawn from the latched
`(V[x], V[y])`; then VF is the collision bit. -/
def execDrwVxVyN (x y : Reg) (n : Nat) (s : State) : Result :=
  match s.badRead n with
  | some a => s.raise .addressError (some (encode (.drwVxVyN x y n))) (some a)
  | none =>
    let drawn := s.advance.plot (spritePoints (s.reg x).toNat (s.reg y).toNat (s.spriteRows n))
    .next (drawn.1.setReg vf (collisionFlag drawn.2))

end Sys2Proof.Machine
end

