-- ==== Sys2Proof/Machine/IndexMem.lean ====
section
/-! DEFINITION. The index register and memory load and store (43_index_memory.md R170 to R176). An instruction that
accesses several bytes checks all of them in ascending order before it does anything (R59). -/

namespace Sys2Proof.Machine

/-- `LD I, nnn` (R170). -/
def execLdINnn (nnn : Addr12) (s : State) : Result :=
  .next (s.advance.setI (zextAddr nnn))

/-- `ADD I, Vx` (R171): mod 65536, VF not written. -/
def execAddIVx (x : Reg) (s : State) : Result :=
  .next (s.advance.setI (s.i + zextByte (s.reg x)))

/-- `LD F, Vx` (R172): `I <- V[x] * 5`, no masking. -/
def execLdFVx (x : Reg) (s : State) : Result :=
  .next (s.advance.setI (BitVec.ofNat 16 ((s.reg x).toNat * 5)))

/-- `LD B, Vx` (R173): the three decimal digits at `EA(0) .. EA(2)`. -/
def execLdBVx (x : Reg) (s : State) : Result :=
  match s.badWrite 3 with
  | some a => s.raise .addressError (some (encode (.ldBVx x))) (some a)
  | none => .next (s.advance.storeBytes (s.ea 0) (bcdDigits (s.reg x)))

/-- `LD [I], Vx` (R174): V0..Vx at `EA(0) .. EA(x)`; I is not changed (R176). -/
def execLdMemIVx (x : Reg) (s : State) : Result :=
  match s.badWrite (x.val + 1) with
  | some a => s.raise .addressError (some (encode (.ldMemIVx x))) (some a)
  | none => .next (s.advance.storeBytes (s.ea 0) (s.regBytes x))

/-- `LD Vx, [I]` (R175): V0..Vx from `EA(0) .. EA(x)`; I is not changed (R176). -/
def execLdVxMemI (x : Reg) (s : State) : Result :=
  match s.badRead (x.val + 1) with
  | some a => s.raise .addressError (some (encode (.ldVxMemI x))) (some a)
  | none => .next (s.advance.loadRegs (regsUpTo x))

end Sys2Proof.Machine
end

