-- ==== Sys2Proof/Machine/KeyTimer.lean ====
section
/-! DEFINITION. Key skips, timer access and wait-for-key (45_timers_input.md R210 to R216). -/

namespace Sys2Proof.Machine

/-- `SKP Vx` (R211): skip if the answer for key V[x] is "down". -/
def execSkpVx (x : Reg) (s : State) : Result :=
  .next (s.advance.queried.skipIf (s.isKeyPressed (s.reg x)))

/-- `SKNP Vx` (R212): skip if the answer for key V[x] is not "down". -/
def execSknpVx (x : Reg) (s : State) : Result :=
  .next (s.advance.queried.skipIf (!s.isKeyPressed (s.reg x)))

/-- `LD Vx, DT` (R213). -/
def execLdVxDt (x : Reg) (s : State) : Result :=
  .next (s.advance.setReg x s.dt)

/-- `LD Vx, K` (R214): `EXEC <- AWAITING_KEY(x)`; V[x] is written later, by the key event (R217). -/
def execLdVxK (x : Reg) (s : State) : Result :=
  .next (s.advance.setExec (.awaitingKey x))

/-- `LD DT, Vx` (R215). -/
def execLdDtVx (x : Reg) (s : State) : Result :=
  .next (s.advance.setDt (s.reg x))

/-- `LD ST, Vx` (R216). -/
def execLdStVx (x : Reg) (s : State) : Result :=
  .next (s.advance.setSt (s.reg x))

end Sys2Proof.Machine
end

