-- ==== Sys2Proof/Machine/Engine.lean ====
section
/-! DEFINITION. Fetch and decode (40_engine.md R101, R103), the parts of a tick that are no instruction
(45_timers_input.md R218, R219; 44_display.md R193), and the events (R105, R217; 70_reset_and_hazards.md R261, R262). -/

namespace Sys2Proof.Machine

/-! ### Fetch and decode -/

/-- What a fetch or a decode raises: the code, the word where one was read, and the address of an ADDRESS_ERROR. -/
structure FetchFault where
  code : FaultCode
  word : Option Word
  addr : Option Nat
  deriving DecidableEq, Repr

/-- The alignment check of R101 under ODD_PC_POLICY. -/
def State.oddPcFaults (s : State) : Bool :=
  decide (s.cfg.oddPcPolicy = .fault) && decide (s.pc.toNat % 2 = 1)

/-- Fetch (R101): alignment, then the byte at `a`, then the byte at `a + 1`, big-endian; in the order of R233. -/
def State.fetch (s : State) : Except FetchFault Word :=
  if s.oddPcFaults then .error ⟨.pcAlignment, none, none⟩
  else
    match s.memRead s.pc.toNat with
    | .error a => .error ⟨.addressError, none, some a⟩
    | .ok hi =>
      match s.memRead (s.pc.toNat + 1) with
      | .error a => .error ⟨.addressError, none, some a⟩
      | .ok lo => .ok (wordOfBytes hi lo)

/-- Fetch and decode one instruction; an unknown word is UNKNOWN_OPCODE (R103). -/
def State.fetchDecode (s : State) : Except FetchFault Instr :=
  match s.fetch with
  | .error e => .error e
  | .ok w =>
    match decode w with
    | .ok i => .ok i
    | .error _ => .error ⟨.unknownOpcode, some w, none⟩

/-! ### The end of a tick -/

/-- `if T > 0: T <- T - 1` (R218). -/
def countDown (t : Byte) : Byte := if t = 0 then 0 else t - 1

/-- `TimerCountdown()` (R218). -/
def State.timerCountdown (s : State) : State := (s.setDt (countDown s.dt)).setSt (countDown s.st)

/-- `AudioSignal()` (R219). -/
def State.audioSignal (s : State) : State :=
  if s.st = 0 then (s.addCall .audioStop).setAudio .stopped
  else (s.addCall (.audioPlay toneHz)).setAudio .playing

/-- `Display.render()`: a request, with no effect on the core (R193). -/
def State.displayRender (s : State) : State := s.addCall .displayRender

/-- Steps 3 to 5 of a tick (R105): countdown if RUNNING, audio, render. A HALTED or IDLE machine does none of them
(R107, R108). -/
def State.endTick (s : State) : State :=
  match s.execState with
  | .running => s.timerCountdown.audioSignal.displayRender
  | .awaitingKey _ => s.audioSignal.displayRender
  | .halted _ => s
  | .idle => s

/-! ### Events -/

/-- The start of a tick: none in IDLE or HALTED (R108), else the burst stands at its first instruction (R105). -/
def State.beginTick (s : State) : State :=
  match s.execState with
  | .running => s.setPhase (.burst 0)
  | .awaitingKey _ => s.setPhase (.burst 0)
  | .halted _ => s
  | .idle => s

/-- `KEY(k)` (R217). -/
def State.keyEvent (s : State) (k : Fin 16) : State :=
  match s.execState with
  | .awaitingKey x => (s.setReg x (BitVec.ofNat 8 k.val)).setExec .running
  | .running => s
  | .halted _ => s
  | .idle => s

/-- Whether a program is accepted: 1 to 3584 bytes (R66, R261). -/
def loadAccepted (bytes : List Byte) : Bool := decide (1 ≤ bytes.length ∧ bytes.length ≤ maxProg)

/-- `loadProgram(bytes)`: `M[0x200 + j] <- bytes[j]` (R66). It does not go through the checks of R54. -/
def State.loadProgram (s : State) (bytes : List Byte) : State := s.storeBytes progBase bytes

/-- `Reset(bytes)` (R262). Memory with no cell listed holds the glyphs and 0 elsewhere, so it stands for the clearing
and `loadFont()` (R65). What belongs to the environment is kept [log 18]. -/
def State.resetWith (s : State) (bytes : List Byte) : State :=
  let cleared : State := { s with
    v := Vector.replicate 16 0
    i := 0
    pc := BitVec.ofNat 16 progBase
    stack := []
    dt := 0
    st := 0
    execState := .running
    mem := []
    fb := []
    audio := .stopped
    phase := .between
    calls := .audioStop :: .displayClear :: s.calls }
  cleared.loadProgram bytes

/-- `LOAD(bytes)` (R261): a rejected load signals load_error and changes nothing else. -/
def State.loadEvent (s : State) (bytes : List Byte) : State :=
  if loadAccepted bytes then s.resetWith bytes else s.addCall .loadError

/-- One event (R100). -/
def State.handle (s : State) : Event → State
  | .tick => s.beginTick
  | .key k => s.keyEvent k
  | .load bytes => s.loadEvent bytes

end Sys2Proof.Machine
end

