-- ==== Sys2Proof/Machine/Scheduler.lean ====
section
/-! DEFINITION. One instruction from fetch to commit, and the tick: as the steps of the machine, and as the one atomic
event of 40_engine.md R105. -/

namespace Sys2Proof.Machine

/-- `Step()` of R105, the rules R101 to R104: fetch, decode, execute, or fault entry. -/
def runInstr (s : State) : Result :=
  match s.fetchDecode with
  | .error e => s.raise e.code e.word e.addr
  | .ok i => exec i s

/-- What the scheduler does after the instruction number `done` of a burst: a fault ends the tick at once (R107),
else one more instruction of the burst has run (R106). -/
def State.endInstr (done : Nat) (t : State) : State :=
  match t.execState with
  | .halted _ => t.setPhase .between
  | .running => t.setPhase (.burst (done + 1))
  | .awaitingKey _ => t.setPhase (.burst (done + 1))
  | .idle => t.setPhase (.burst (done + 1))

/-- A change of the next state, where there is one. -/
def onNext (f : State → State) : Result → Result
  | .next t => .next (f t)
  | .fault r => .fault r
  | .refused r => .refused r

/-- Whether a burst that has run `done` instructions goes on: `i < SPEED and EXEC == RUNNING` (R105). -/
def State.burstGoesOn (s : State) (done : Nat) : Bool :=
  decide (done < s.cfg.speed) && decide (s.execState = .running)

/-- A step inside a tick: the next instruction of the burst, or the end of the tick (R105). -/
def State.burstStep (s : State) (done : Nat) : Result :=
  if s.burstGoesOn done then onNext (State.endInstr done) (runInstr s)
  else .next (s.endTick.setPhase .between)

/-- A step between events: the oldest event still to come, or nothing, since "Between events the core's state does
not change" (R100). -/
def State.eventStep (s : State) : Result :=
  match s.events with
  | [] => .next s
  | e :: es => .next ((s.setEvents es).handle e)

/-- The loop of R105: at most `n` instructions, while RUNNING. -/
def burst : Nat → State → Result
  | 0, s => .next s
  | n + 1, s =>
    if s.execState = .running then
      match runInstr s with
      | .next t => burst n t
      | .fault r => .fault r
      | .refused r => .refused r
    else .next s

/-- `Tick()` of R105 as one atomic event. The machine's steps do the same in several steps [log 6]. -/
def tick (s : State) : Result := onNext State.endTick (burst s.cfg.speed s)

/-- Whether a fetch at the state's PC passes the checks of R101. -/
def State.canFetch (s : State) : Bool := !s.oddPcFaults && decide (s.pc.toNat + 1 ≤ 0xFFF)

/-- The state about to run the instruction that lies at PC: RUNNING, inside a burst that is not over. -/
def State.inBurst (s : State) : State :=
  (s.setExec .running).setPhase (.burst 0)

/-- PC where it is if a fetch there passes its checks, else at PROG_BASE. -/
def State.fetchable (s : State) : State := if s.canFetch then s else s.setPc (BitVec.ofNat 16 progBase)

/-- Two bytes at PC and PC + 1, the first at PC (R56). -/
def State.placeAtPc (s : State) (bytes : List Byte) : State := s.storeBytes s.pc.toNat bytes

end Sys2Proof.Machine
end

