-- ==== Sys2Proof/Machine/Step.lean ====
section
/-! DEFINITION. One step of the machine, and the state whose next step runs a given word. -/

namespace Sys2Proof.Machine

/-- One step: inside a tick, one instruction of its burst or the tick's end; between events, the next event
(R100, R105) [log 6, 7]. -/
def step (s : State) : Host.Outcome State Fault Refusal :=
  match s.phase with
  | .burst done => s.burstStep done
  | .between => s.eventStep

/-- `s` with the instruction of spec/opcode_table.json's bits `w` placed where the next step fetches, and the machine
inside a tick with that step to come [log 4]. -/
def State.withFetchWord (s : State) (nbits w : Nat) : State :=
  s.fetchable.inBurst.placeAtPc (tableBytes nbits w)

end Sys2Proof.Machine
end

