-- ==== Sys2Proof/Safety.lean ====
section
/-! DEFINITION. What a safe run is, and the invariants claims are stated in. -/

namespace Sys2Proof.Machine

/-- EXEC is HALTED (R29). -/
def ExecState.isHalted : ExecState → Bool
  | .halted _ => true
  | .running => false
  | .awaitingKey _ => false
  | .idle => false

/-- A fatal error has occurred (R230). -/
def State.isHalted (s : State) : Bool := s.execState.isHalted

/-- A run of `n` steps is safe when none of the states it passes through has met a fatal error. -/
def safeRun : Nat → State → Prop
  | 0, s => s.isHalted = false
  | n + 1, s => s.isHalted = false ∧ ∃ t, step s = .next t ∧ safeRun n t

/-- Memory and framebuffer are in canonical form: equal contents are equal lists [log 2, 11]. -/
structure State.Canonical (s : State) : Prop where
  mem : Memory.wf s.cfg s.mem
  fb : Framebuffer.wf s.cfg s.fb

/-- The ranges R23 and R24 give: PC in 0x000..0x10FE, SP at most STACK_DEPTH, return addresses at most 0x1000. -/
structure State.InRange (s : State) : Prop where
  pc : s.pc.toNat ≤ 0x10FE
  sp : s.sp ≤ s.cfg.stackDepth
  stack : ∀ w ∈ s.stack, w.toNat ≤ 0x1000

/-- Every return address is even where fetches are checked for alignment (R57, R101, R122). -/
def State.EvenReturns (s : State) : Prop :=
  s.cfg.oddPcPolicy = .fault → ∀ w ∈ s.stack, w.toNat % 2 = 0

/-- Every byte below 0x200 reads as its reset content where the reserved area is protected (R52, R54). -/
def State.ReservedIntact (s : State) : Prop :=
  s.cfg.protectReserved = true → ∀ a, a < 0x200 → s.readByte a = resetByte s.cfg a

/-- A fault record is one the spec describes (R30, R231): its pc is where PC stands, it is no LOAD_ERROR, it names an
address exactly when it is an ADDRESS_ERROR, and it lacks a word only when the fetch itself faulted. -/
def FaultRecord.Legal (f : FaultRecord) : Prop :=
  match f.code with
  | .unknownOpcode => f.word.isSome = true ∧ f.addr = none
  | .addressError => f.addr.isSome = true
  | .stackUnderflow => f.word = some (encode .ret) ∧ f.addr = none
  | .stackOverflow => f.word.isSome = true ∧ f.addr = none
  | .pcAlignment => f.word = none ∧ f.addr = none
  | .loadError => False

/-- The scheduler and EXEC agree: a tick is in progress only in RUNNING or AWAITING_KEY, with at most SPEED
instructions run (R105 to R108), and a fault record is legal and has PC's value (R30, R234). -/
structure State.Orderly (s : State) : Prop where
  burst : ∀ done, s.phase = .burst done →
    done ≤ s.cfg.speed ∧ (s.execState = .running ∨ ∃ x, s.execState = .awaitingKey x)
  record : ∀ f, s.execState = .halted f → f.pc = s.pc ∧ f.Legal

end Sys2Proof.Machine
end

