-- ==== Sys2Proof/Certificates/Slice0/Obligations.lean ====
section
/-! DEFINITION. The statements for the provers. Each docstring names the rules of spec/ it formalises. A closing
[spec: ...] names the decisions D<n> of 92_eei_decisions.md the statement rests on, which are the spec's own choices and
not its source's (D1 is the adoption of the conventional opcode words, [log 13]), and the log entries of the model's
choices in it. -/

namespace Sys2Proof.Machine

/-! ### Words the statements are made of -/

/-- The parts of the state an instruction can change beside PC and the V registers. -/
inductive Part where
  | index | stack | delayTimer | soundTimer | exec | memory | framebuffer | audio | calls | random | keys
  deriving DecidableEq, Repr

/-- One part is the same before and after; memory is compared by reading every byte. -/
def Part.Kept (s t : State) : Part → Prop
  | .index => t.i = s.i
  | .stack => t.stack = s.stack
  | .delayTimer => t.dt = s.dt
  | .soundTimer => t.st = s.st
  | .exec => t.execState = s.execState
  | .memory => ∀ a, t.readByte a = s.readByte a
  | .framebuffer => t.fb = s.fb
  | .audio => t.audio = s.audio
  | .calls => t.calls = s.calls
  | .random => t.randFeed = s.randFeed ∧ t.randCount = s.randCount
  | .keys => t.keyFeed = s.keyFeed ∧ t.keyCount = s.keyCount

/-- The frame: everything but PC is the same, except the V registers of `ks` and the parts of `ps`. -/
structure KeptBut (ks : List Reg) (ps : List Part) (s t : State) : Prop where
  regs : ∀ k, k ∉ ks → t.reg k = s.reg k
  parts : ∀ p, p ∉ ps → p.Kept s t
  cfg : t.cfg = s.cfg
  phase : t.phase = s.phase
  events : t.events = s.events

/-- Every byte outside the `len` bytes at `base` reads as before. -/
def MemKeptOutside (base len : Nat) (s t : State) : Prop :=
  ∀ a, ¬ (base ≤ a ∧ a < base + len) → t.readByte a = s.readByte a

/-- The state a fault leaves (R104, R234): only EXEC differs, and it holds the record. -/
def haltedAt (s : State) (code : FaultCode) (word : Option Word) (addr : Option Nat) : State :=
  s.setExec (.halted ⟨code, s.pc, word, addr⟩)

/-- MemWrite refuses an address (R54). -/
def Unwritable (s : State) (a : Nat) : Prop := 0xFFF < a ∨ (s.cfg.protectReserved = true ∧ a < 0x200)

/-- How many of a sprite's `setPixel` calls fall on the pixel `(px, py)`: the rows are the bytes at EA(0), EA(1), ...,
bit 7 of a row is column 0, and coordinates wrap (R192, R195, R196). -/
def spriteHits (s : State) (x y : Reg) (n px py : Nat) : Nat :=
  ((List.range n).map fun r => (List.range 8).countP fun c =>
    (s.readByte (s.ea r)).getLsbD (7 - c) && ((s.reg x).toNat + c) % s.cfg.displayW == px &&
      ((s.reg y).toNat + r) % s.cfg.displayH == py).sum

/-- The instructions that write VF as a flag (R21). -/
def writesFlag : Instr → Bool
  | .addVxVy _ _ | .subVxVy _ _ | .shrVx _ _ | .subnVxVy _ _ | .shlVx _ _ | .drwVxVyN _ _ _ => true
  | _ => false

/-- The V registers an instruction names as an ordinary destination (R21). -/
def isDestination : Instr → Reg → Bool
  | .ldVxNn x _, k | .addVxNn x _, k | .ldVxVy x _, k | .orVxVy x _, k | .andVxVy x _, k | .xorVxVy x _, k
  | .addVxVy x _, k | .subVxVy x _, k | .shrVx x _, k | .subnVxVy x _, k | .shlVx x _, k | .rndVxNn x _, k
  | .ldVxDt x, k => decide (k = x)
  | .ldVxMemI x, k => decide (k ≤ x)
  | _, _ => false

/-- The instructions that write PC beside the step's advance (R23). -/
def writesPc : Instr → Bool
  | .ret | .jpNnn _ | .callNnn _ | .jpV0Nnn _ | .seVxNn _ _ | .sneVxNn _ _ | .seVxVy _ _ | .sneVxVy _ _
  | .skpVx _ | .sknpVx _ => true
  | _ => false

/-- The instructions that can fault in execution (R232). -/
def canFault : Instr → Bool
  | .ret | .callNnn _ | .drwVxVyN _ _ _ | .ldBVx _ | .ldMemIVx _ | .ldVxMemI _ => true
  | _ => false

/-- The instructions that write a part (R22, R24, R27, R28, R29, R32, R50; R154 and R210 for the environment). -/
def writesPart : Instr → Part → Bool
  | .ldINnn _, .index | .addIVx _, .index | .ldFVx _, .index => true
  | .callNnn _, .stack | .ret, .stack => true
  | .ldDtVx _, .delayTimer => true
  | .ldStVx _, .soundTimer => true
  | .ldVxK _, .exec => true
  | .ldBVx _, .memory | .ldMemIVx _, .memory => true
  | .cls, .framebuffer | .drwVxVyN _ _ _, .framebuffer => true
  | .cls, .calls | .drwVxVyN _ _ _, .calls => true
  | .rndVxNn _ _, .random => true
  | .skpVx _, .keys | .sknpVx _, .keys => true
  | _, _ => false

/-- Instructions executed one after another, without fetching them. -/
def execAll : List Instr → State → Result
  | [], s => .next s
  | i :: is, s =>
    match exec i s with
    | .next t => execAll is t
    | .fault r => .fault r
    | .refused r => .refused r

end Sys2Proof.Machine

open Sys2Proof Sys2Proof.Machine

/-! ### Encoding (30_encoding.md) -/

/-- Words written out from R85, and unknown words of R86 (95_test_vectors.md 2.2).
[spec: D1, D2] -/
def Obligations.WrittenWordsDecode : Prop :=
  decode 0x00E0 = .ok .cls ∧ decode 0x00EE = .ok .ret ∧ decode 0x1234 = .ok (.jpNnn 0x234) ∧
  decode 0x5120 = .ok (.seVxVy 1 2) ∧ decode 0x6A9C = .ok (.ldVxNn 10 0x9C) ∧ decode 0x8124 = .ok (.addVxVy 1 2) ∧
  decode 0x81F6 = .ok (.shrVx 1 15) ∧ decode 0xD125 = .ok (.drwVxVyN 1 2 5) ∧ decode 0xE19E = .ok (.skpVx 1) ∧
  decode 0xF10A = .ok (.ldVxK 1) ∧ decode 0xF265 = .ok (.ldVxMemI 2) ∧
  decode 0x0123 = .error (.unknownOpcode 0x0123) ∧ decode 0x5121 = .error (.unknownOpcode 0x5121) ∧
  decode 0x812F = .error (.unknownOpcode 0x812F) ∧ decode 0xF156 = .error (.unknownOpcode 0xF156)

/-- R84: a word is the instruction of the one row of the opcode map it matches, and unknown when it matches none.
[spec: D1] -/
def Obligations.DecodeAgreesWithOpcodeMap : Prop :=
  ∀ w : Word,
    (∀ i, decode w = .ok i → ∃ r, opcodeMap[i.rowIndex]? = some r ∧ opcodeMap.filter (·.hits w) = [r]) ∧
    (∀ e, decode w = .error e → e = .unknownOpcode w ∧ opcodeMap.filter (·.hits w) = [])

/-- Decoding an encoded well-formed instruction gives it back, and so does decoding its bytes in memory order; every
instruction of the table, every operand value (R80 to R85).
[spec: D1] -/
def Obligations.DecodeOfEncodeIsIdentity : Prop :=
  ∀ i : Instr, i.wellFormed = true →
    decode (encode i) = .ok i ∧ ∀ rest, decodeBytes (encodeBytes i ++ rest) = .ok (i, rest)

/-- No bit of a word is dropped: an instruction decoded from a word is well-formed and encodes to that word.
[spec: D1] -/
def Obligations.EncodeOfDecodeIsIdentity : Prop :=
  ∀ (w : Word) (i : Instr), decode w = .ok i → i.wellFormed = true ∧ encode i = w

/-- R86: the unknown words are exactly those listed there, and running one raises UNKNOWN_OPCODE with pc and word.
[spec: D1, D2; the record of a fault by D11 and D12, HALTED as a next state by log 12] -/
def Obligations.UnknownWordsAreThoseListedAndHalt : Prop :=
  ∀ w : Word,
    (decode w = .error (.unknownOpcode w) ↔
      (bits w 15 12 = 0 ∧ w ≠ 0x00E0 ∧ w ≠ 0x00EE) ∨
      ((bits w 15 12 = 5 ∨ bits w 15 12 = 9) ∧ bits w 3 0 ≠ 0) ∨
      (bits w 15 12 = 8 ∧ bits w 3 0 ∈ [0x8, 0x9, 0xA, 0xB, 0xC, 0xD, 0xF]) ∨
      (bits w 15 12 = 0xE ∧ bits w 7 0 ∉ [0x9E, 0xA1]) ∨
      (bits w 15 12 = 0xF ∧ bits w 7 0 ∉ [0x07, 0x0A, 0x15, 0x18, 0x1E, 0x29, 0x33, 0x55, 0x65])) ∧
    ∀ s : State, s.fetch = .ok w → decode w = .error (.unknownOpcode w) →
      runInstr s = .next (haltedAt s .unknownOpcode (some w) none)

/-! ### Engine and scheduler (40_engine.md, 45_timers_input.md) -/

/-- Inside a burst that goes on, a step at a PC that passes its checks runs the instruction whose word lies there,
big-endian; around it the step only moves the burst on, or ends the tick on a fault (R101, R103, R106, R107).
[spec: D5; that one step of the machine is one instruction of a burst, and endInstr's move of the phase, are the
model's, log 6] -/
def Obligations.StepRunsDecodedInstruction : Prop :=
  ∀ (s : State) (done : Nat) (i : Instr),
    s.phase = .burst done → done < s.cfg.speed → s.execState = .running →
    s.cfg.oddPcPolicy = .fetch ∨ s.pc.toNat % 2 = 0 → s.pc.toNat + 1 ≤ 0xFFF →
    decode (BitVec.ofNat 16 ((s.readByte s.pc.toNat).toNat * 256 + (s.readByte (s.pc.toNat + 1)).toNat)) = .ok i →
    step s = onNext (State.endInstr done) (exec i s)

/-- The model's `withFetchWord` places a word where the next step runs it, from any state [log 4].
[spec: none; the model's withFetchWord, log 4] -/
def Obligations.PlacedWordRunsNext : Prop :=
  ∀ (s : State) (w : Word) (i : Instr), decode w = .ok i →
    step (s.withFetchWord 16 w.toNat) = onNext (State.endInstr 0) (exec i (s.withFetchWord 16 w.toNat))

/-- R101: the fetch's alignment check under ODD_PC_POLICY, then the byte at `a`, then the byte at `a + 1`, big-endian;
a failing check ends the step in HALTED with PC unchanged.
[spec: D5, D13; the record of a fault by D11 and D12, HALTED as a next state by log 12] -/
def Obligations.FetchChecksInOrderThenReadsBigEndian : Prop :=
  ∀ s : State,
    (s.cfg.oddPcPolicy = .fault → s.pc.toNat % 2 = 1 →
      runInstr s = .next (haltedAt s .pcAlignment none none)) ∧
    (s.cfg.oddPcPolicy = .fetch ∨ s.pc.toNat % 2 = 0 →
      (0xFFF < s.pc.toNat → runInstr s = .next (haltedAt s .addressError none (some s.pc.toNat))) ∧
      (s.pc.toNat = 0xFFF → runInstr s = .next (haltedAt s .addressError none (some 0x1000))) ∧
      (s.pc.toNat < 0xFFF → s.fetch = .ok (BitVec.ofNat 16
        ((s.readByte s.pc.toNat).toNat * 256 + (s.readByte (s.pc.toNat + 1)).toNat))))

/-- R104, R234: an instruction that ends in HALTED has committed nothing else: the state after it is the state before
its fetch with EXEC replaced, and the record's pc is the instruction's own address.
[spec: the record of a fault by D11 and D12, HALTED as a next state by log 12] -/
def Obligations.FaultingInstructionCommitsNothing : Prop :=
  ∀ (s t : State) (f : FaultRecord), s.execState = .running → runInstr s = .next t → t.execState = .halted f →
    t = s.setExec (.halted f) ∧ f.pc = s.pc ∧ f.Legal

/-- R232: in execution only RET, CALL, DRW, LD B, LD [I] and LD Vx,[I] can fault, each shown by one that does; every
other instruction completes with no fault once decoded.
[spec: none, R232 is marked as derived; HALTED as a next state is log 12] -/
def Obligations.OnlySixInstructionsFaultInExecution : Prop :=
  (∀ (i : Instr) (s : State), canFault i = false → s.execState = .running →
    ∃ t, exec i s = .next t ∧ t.isHalted = false) ∧
  (∀ i ∈ [Instr.ret, .callNnn 0x300, .drwVxVyN 0 1 2, .ldBVx 0, .ldMemIVx 0, .ldVxMemI 1],
    ∃ s t, s.execState = .running ∧ exec i s = .next t ∧ t.isHalted = true)

/-- R105: the steps of the machine do what the atomic tick does. A machine between events whose next event is a tick
reaches, in at most SPEED + 2 steps, exactly the state `tick` gives, with that event taken.
[spec: D14; and the model's division of a tick, log 6] -/
def Obligations.TickStepsRefineAtomicTick : Prop :=
  ∀ (s : State) (es : List Event), s.phase = .between → s.events = .tick :: es →
    ∃ n t, 1 ≤ n ∧ n ≤ s.cfg.speed + 2 ∧ tick (s.setEvents es) = .next t ∧ Sys2Proof.core.run n s = .next t

/-- R107: a fault in the burst ends the tick at once: the step leaves the machine between events, with no countdown, no
audio signal and no render request.
[spec: D14; the phases between and burst are the model's division of a tick, log 6; HALTED as a next state is
log 12] -/
def Obligations.FaultInBurstEndsTick : Prop :=
  ∀ (s u : State) (done : Nat), s.phase = .burst done → done < s.cfg.speed → s.execState = .running →
    runInstr s = .next u → u.isHalted = true →
    ∃ t, step s = .next t ∧ t.phase = .between ∧ t.execState = u.execState ∧
      t.dt = s.dt ∧ t.st = s.st ∧ t.audio = s.audio ∧ t.calls = s.calls

/-- R108: a tick in IDLE or HALTED has no effect on any state and makes no call; the event is taken.
[spec: D14; the phase and the list of events are the model's, log 6 and log 7] -/
def Obligations.TickWhileStoppedHasNoEffect : Prop :=
  ∀ (s : State) (es : List Event), s.phase = .between → s.events = .tick :: es →
    s.execState = .idle ∨ s.isHalted = true → step s = .next (s.setEvents es)

/-- R109: a tick that starts in AWAITING_KEY executes no instruction and leaves the timers alone, and still signals
audio and requests a render.
[spec: none, R109 is marked as derived; that such a tick takes two steps and ends in the phase between is the model's
division of a tick, log 6; the list of events is log 7] -/
def Obligations.TickWhileAwaitingKeyOnlySignals : Prop :=
  ∀ (s : State) (es : List Event) (x : Reg), s.phase = .between → s.events = .tick :: es →
    s.execState = .awaitingKey x →
    ∃ t, Sys2Proof.core.run 2 s = .next t ∧ t.phase = .between ∧ t.events = es ∧ t.execState = .awaitingKey x ∧
      t.pc = s.pc ∧ t.dt = s.dt ∧ t.st = s.st ∧ (∀ k, t.reg k = s.reg k) ∧ t.i = s.i ∧ t.stack = s.stack ∧
      (∀ a, t.readByte a = s.readByte a) ∧ t.fb = s.fb ∧
      t.audio = (if s.st = 0 then .stopped else .playing) ∧
      t.calls = .displayRender :: (if s.st = 0 then .audioStop else .audioPlay 440) :: s.calls

/-- R218, R219: the end of a tick still RUNNING counts DT and ST down by one, floor 0, and then signals audio by the
new ST; a tick that ended in AWAITING_KEY does not count down.
[spec: none, R219 is in part marked as derived; the phase inside a tick and the one step that ends a tick are the
model's, log 6] -/
def Obligations.EndOfTickCountsDownThenSignals : Prop :=
  ∀ (s : State) (done : Nat), s.phase = .burst done →
    ((s.execState = .running ∧ s.cfg.speed ≤ done) ∨ ∃ x, s.execState = .awaitingKey x) →
    ∃ t, step s = .next t ∧ t.phase = .between ∧ t.execState = s.execState ∧
      (s.execState = .running → t.dt.toNat = s.dt.toNat - 1 ∧ t.st.toNat = s.st.toNat - 1) ∧
      (s.execState ≠ .running → t.dt = s.dt ∧ t.st = s.st) ∧
      t.audio = (if 0 < t.st.toNat then .playing else .stopped) ∧
      t.calls = .displayRender :: (if 0 < t.st.toNat then .audioPlay 440 else .audioStop) :: s.calls ∧
      t.pc = s.pc ∧ (∀ k, t.reg k = s.reg k) ∧ t.i = s.i ∧ t.stack = s.stack ∧
      (∀ a, t.readByte a = s.readByte a) ∧ t.fb = s.fb ∧ t.events = s.events

/-- R217: a key event in AWAITING_KEY(x) writes the code to V[x] and resumes; in any other state it has no effect.
[spec: D15, D28; the phase and the list of events are the model's, log 6 and log 7] -/
def Obligations.KeyEventResolvesOnlyTheWait : Prop :=
  ∀ (s : State) (k : Fin 16) (es : List Event), s.phase = .between → s.events = .key k :: es →
    (∀ x, s.execState = .awaitingKey x →
      ∃ t, step s = .next t ∧ (t.reg x).toNat = k.val ∧ t.execState = .running ∧ t.pc = s.pc ∧
        KeptBut [x] [.exec] (s.setEvents es) t) ∧
    ((∀ x, s.execState ≠ .awaitingKey x) → step s = .next (s.setEvents es))

/-- R218, R267: DT and ST change only by LD DT and LD ST, by the countdown at the end of a tick, or by an accepted
LOAD.
[spec: none, R267 is marked as derived; the phase inside a tick and burstGoesOn, by which the first two cases are
told, are the model's division of a tick, log 6; the list of events is log 7] -/
def Obligations.TimersChangeOnlyByTheirWriters : Prop :=
  ∀ s t : State, step s = .next t → t.dt ≠ s.dt ∨ t.st ≠ s.st →
    (∃ done x, s.phase = .burst done ∧ s.burstGoesOn done = true ∧
      (s.fetchDecode = .ok (.ldDtVx x) ∨ s.fetchDecode = .ok (.ldStVx x))) ∨
    (∃ done, s.phase = .burst done ∧ s.burstGoesOn done = false ∧ s.execState = .running) ∨
    (∃ bytes es, s.phase = .between ∧ s.events = .load bytes :: es ∧ loadAccepted bytes = true)

/-! ### Control transfer (41_control.md) -/

/-- R120.
[spec: D1 for the word, log 13; the record of a fault by D11 and D12, HALTED as a next state by log 12] -/
def Obligations.RetPopsPcOrUnderflows : Prop :=
  decode 0x00EE = .ok .ret ∧ ∀ s : State,
    (∀ w ws, s.stack = w :: ws →
      ∃ t, exec .ret s = .next t ∧ t.pc = w ∧ t.stack = ws ∧ t.sp + 1 = s.sp ∧ KeptBut [] [.stack] s t) ∧
    (s.sp = 0 → exec .ret s = .next (haltedAt s .stackUnderflow (some 0x00EE) none))

/-- R122.
[spec: D1 for the word, log 13; the capacity by D3; the 16-bit entry kept whole by D31; the record of a fault by D11
and D12, HALTED as a next state by log 12] -/
def Obligations.CallPushesReturnAddressOrOverflows : Prop :=
  ∀ (nnn : Addr12) (s : State),
    decode (BitVec.ofNat 16 (0x2000 + nnn.toNat)) = .ok (.callNnn nnn) ∧
    (s.sp < s.cfg.stackDepth →
      ∃ t, exec (.callNnn nnn) s = .next t ∧ t.pc.toNat = nnn.toNat ∧ t.stack = (s.pc + 2) :: s.stack ∧
        t.sp = s.sp + 1 ∧ KeptBut [] [.stack] s t) ∧
    (s.sp = s.cfg.stackDepth →
      exec (.callNnn nnn) s =
        .next (haltedAt s .stackOverflow (some (BitVec.ofNat 16 (0x2000 + nnn.toNat))) none))

/-- R121, R127.
[spec: D1 for the words; that the sum is not truncated is marked as derived in R127] -/
def Obligations.JumpsWriteTheirTarget : Prop :=
  ∀ (nnn : Addr12) (s : State),
    decode (BitVec.ofNat 16 (0x1000 + nnn.toNat)) = .ok (.jpNnn nnn) ∧
    decode (BitVec.ofNat 16 (0xB000 + nnn.toNat)) = .ok (.jpV0Nnn nnn) ∧
    (∃ t, exec (.jpNnn nnn) s = .next t ∧ t.pc.toNat = nnn.toNat ∧ KeptBut [] [] s t) ∧
    (∃ t, exec (.jpV0Nnn nnn) s = .next t ∧ t.pc.toNat = nnn.toNat + (s.reg 0).toNat ∧ KeptBut [] [] s t)

/-- R123, R124, by the skip law of R128: PC ends at a + 4 when the condition holds, else at a + 2.
[spec: D1 for the words, log 13] -/
def Obligations.ImmediateSkipsFollowTheSkipLaw : Prop :=
  ∀ (x : Reg) (nn : Byte) (s : State),
    decode (BitVec.ofNat 16 (0x3000 + x.val * 0x100 + nn.toNat)) = .ok (.seVxNn x nn) ∧
    decode (BitVec.ofNat 16 (0x4000 + x.val * 0x100 + nn.toNat)) = .ok (.sneVxNn x nn) ∧
    (∃ t, exec (.seVxNn x nn) s = .next t ∧ t.pc = (if s.reg x = nn then s.pc + 4 else s.pc + 2) ∧
      KeptBut [] [] s t) ∧
    (∃ t, exec (.sneVxNn x nn) s = .next t ∧ t.pc = (if s.reg x = nn then s.pc + 2 else s.pc + 4) ∧
      KeptBut [] [] s t)

/-- R125, R126, by the skip law of R128.
[spec: D1 for the words, log 13] -/
def Obligations.RegisterSkipsFollowTheSkipLaw : Prop :=
  ∀ (x y : Reg) (s : State),
    decode (BitVec.ofNat 16 (0x5000 + x.val * 0x100 + y.val * 0x10)) = .ok (.seVxVy x y) ∧
    decode (BitVec.ofNat 16 (0x9000 + x.val * 0x100 + y.val * 0x10)) = .ok (.sneVxVy x y) ∧
    (∃ t, exec (.seVxVy x y) s = .next t ∧ t.pc = (if s.reg x = s.reg y then s.pc + 4 else s.pc + 2) ∧
      KeptBut [] [] s t) ∧
    (∃ t, exec (.sneVxVy x y) s = .next t ∧ t.pc = (if s.reg x = s.reg y then s.pc + 2 else s.pc + 4) ∧
      KeptBut [] [] s t)

/-- R129: n nested calls followed by n returns restore the PC and the stack, for every n the free stack holds.
[spec: none; one sentence of R129] -/
def Obligations.NestedCallsThenReturnsRestorePc : Prop :=
  ∀ (nnn : Addr12) (targets : List Addr12) (s : State), s.sp + (targets.length + 1) ≤ s.cfg.stackDepth →
    ∃ t, execAll ((nnn :: targets).map .callNnn ++ List.replicate (targets.length + 1) .ret) s = .next t ∧
      t.pc = s.pc + 2 ∧ t.stack = s.stack

/-! ### Register arithmetic (42_alu.md) -/

/-- R143, R145.
[spec: D1 for the words] -/
def Obligations.LoadsCopyTheirOperand : Prop :=
  (∀ (x : Reg) (nn : Byte) (s : State),
    decode (BitVec.ofNat 16 (0x6000 + x.val * 0x100 + nn.toNat)) = .ok (.ldVxNn x nn) ∧
    ∃ t, exec (.ldVxNn x nn) s = .next t ∧ t.reg x = nn ∧ t.pc = s.pc + 2 ∧ KeptBut [x] [] s t) ∧
  (∀ (x y : Reg) (s : State),
    decode (BitVec.ofNat 16 (0x8000 + x.val * 0x100 + y.val * 0x10)) = .ok (.ldVxVy x y) ∧
    ∃ t, exec (.ldVxVy x y) s = .next t ∧ t.reg x = s.reg y ∧ t.pc = s.pc + 2 ∧ KeptBut [x] [] s t)

/-- R144: the sum mod 256, and no flag.
[spec: D1 for the word] -/
def Obligations.AddImmediateWrapsWithoutFlag : Prop :=
  ∀ (x : Reg) (nn : Byte) (s : State),
    decode (BitVec.ofNat 16 (0x7000 + x.val * 0x100 + nn.toNat)) = .ok (.addVxNn x nn) ∧
    ∃ t, exec (.addVxNn x nn) s = .next t ∧ (t.reg x).toNat = ((s.reg x).toNat + nn.toNat) % 256 ∧
      t.pc = s.pc + 2 ∧ KeptBut [x] [] s t

/-- R146, R147, R148: bit by bit, and no flag.
[spec: D1 for the words] -/
def Obligations.BitwiseOperationsTouchNoFlag : Prop :=
  ∀ (x y : Reg) (s : State),
    decode (BitVec.ofNat 16 (0x8001 + x.val * 0x100 + y.val * 0x10)) = .ok (.orVxVy x y) ∧
    decode (BitVec.ofNat 16 (0x8002 + x.val * 0x100 + y.val * 0x10)) = .ok (.andVxVy x y) ∧
    decode (BitVec.ofNat 16 (0x8003 + x.val * 0x100 + y.val * 0x10)) = .ok (.xorVxVy x y) ∧
    (∃ t, exec (.orVxVy x y) s = .next t ∧
      (∀ b, (t.reg x).getLsbD b = ((s.reg x).getLsbD b || (s.reg y).getLsbD b)) ∧
      t.pc = s.pc + 2 ∧ KeptBut [x] [] s t) ∧
    (∃ t, exec (.andVxVy x y) s = .next t ∧
      (∀ b, (t.reg x).getLsbD b = ((s.reg x).getLsbD b && (s.reg y).getLsbD b)) ∧
      t.pc = s.pc + 2 ∧ KeptBut [x] [] s t) ∧
    (∃ t, exec (.xorVxVy x y) s = .next t ∧
      (∀ b, (t.reg x).getLsbD b = ((s.reg x).getLsbD b ^^ (s.reg y).getLsbD b)) ∧
      t.pc = s.pc + 2 ∧ KeptBut [x] [] s t)

/-- R149: the result is the sum mod 256, x = F included; VF is the carry of the values before the instruction.
[spec: D1 for the word; y = F by D9] -/
def Obligations.AddRegistersSetsCarry : Prop :=
  ∀ (x y : Reg) (s : State),
    decode (BitVec.ofNat 16 (0x8004 + x.val * 0x100 + y.val * 0x10)) = .ok (.addVxVy x y) ∧
    ∃ t, exec (.addVxVy x y) s = .next t ∧
      (t.reg x).toNat = ((s.reg x).toNat + (s.reg y).toNat) % 256 ∧
      (x ≠ 15 → (t.reg 15).toNat = if 255 < (s.reg x).toNat + (s.reg y).toNat then 1 else 0) ∧
      t.pc = s.pc + 2 ∧ KeptBut [x, 15] [] s t

/-- R150, R152: the difference mod 256, x = F included; VF is 1 iff the minuend is strictly greater.
[spec: D1 for the words; y = F by D9; x = F by D10] -/
def Obligations.SubtractionsSetStrictNotBorrow : Prop :=
  ∀ (x y : Reg) (s : State),
    decode (BitVec.ofNat 16 (0x8005 + x.val * 0x100 + y.val * 0x10)) = .ok (.subVxVy x y) ∧
    decode (BitVec.ofNat 16 (0x8007 + x.val * 0x100 + y.val * 0x10)) = .ok (.subnVxVy x y) ∧
    (∃ t, exec (.subVxVy x y) s = .next t ∧
      (t.reg x).toNat = ((s.reg x).toNat + 256 - (s.reg y).toNat) % 256 ∧
      (x ≠ 15 → (t.reg 15).toNat = if (s.reg y).toNat < (s.reg x).toNat then 1 else 0) ∧
      t.pc = s.pc + 2 ∧ KeptBut [x, 15] [] s t) ∧
    (∃ t, exec (.subnVxVy x y) s = .next t ∧
      (t.reg x).toNat = ((s.reg y).toNat + 256 - (s.reg x).toNat) % 256 ∧
      (x ≠ 15 → (t.reg 15).toNat = if (s.reg x).toNat < (s.reg y).toNat then 1 else 0) ∧
      t.pc = s.pc + 2 ∧ KeptBut [x, 15] [] s t)

/-- R151, R153: V[x] shifted by one, whatever y is; VF is the bit shifted out.
[spec: D1 for the words; x = F by D10] -/
def Obligations.ShiftsIgnoreVyAndKeepTheBitShiftedOut : Prop :=
  ∀ (x y : Reg) (s : State),
    decode (BitVec.ofNat 16 (0x8006 + x.val * 0x100 + y.val * 0x10)) = .ok (.shrVx x y) ∧
    decode (BitVec.ofNat 16 (0x800E + x.val * 0x100 + y.val * 0x10)) = .ok (.shlVx x y) ∧
    (∃ t, exec (.shrVx x y) s = .next t ∧ (t.reg x).toNat = (s.reg x).toNat / 2 ∧
      (x ≠ 15 → (t.reg 15).toNat = (s.reg x).toNat % 2) ∧ t.pc = s.pc + 2 ∧ KeptBut [x, 15] [] s t) ∧
    (∃ t, exec (.shlVx x y) s = .next t ∧ (t.reg x).toNat = (s.reg x).toNat * 2 % 256 ∧
      (x ≠ 15 → (t.reg 15).toNat = (s.reg x).toNat / 128) ∧ t.pc = s.pc + 2 ∧ KeptBut [x, 15] [] s t)

/-- R154: a draw, any byte, masked by nn. The draw is `s.randByte`; every byte can be drawn.
[spec: D1 for the word, D21; the form of a draw is log 8] -/
def Obligations.RandomIsAnyByteMasked : Prop :=
  ∀ (x : Reg) (nn : Byte) (s : State),
    decode (BitVec.ofNat 16 (0xC000 + x.val * 0x100 + nn.toNat)) = .ok (.rndVxNn x nn) ∧
    (∃ t, exec (.rndVxNn x nn) s = .next t ∧
      (∀ b, (t.reg x).getLsbD b = (s.randByte.getLsbD b && nn.getLsbD b)) ∧
      t.randCount = s.randCount + 1 ∧ t.pc = s.pc + 2 ∧ KeptBut [x] [.random] s t) ∧
    (∀ r : Byte, ({ s with randFeed := r :: s.randFeed } : State).randByte = r)

/-! ### Index register and memory (43_index_memory.md) -/

/-- R170, R171, R172.
[spec: D1 for the words, D7] -/
def Obligations.IndexRegisterWrites : Prop :=
  (∀ (nnn : Addr12) (s : State),
    decode (BitVec.ofNat 16 (0xA000 + nnn.toNat)) = .ok (.ldINnn nnn) ∧
    ∃ t, exec (.ldINnn nnn) s = .next t ∧ t.i.toNat = nnn.toNat ∧ t.pc = s.pc + 2 ∧ KeptBut [] [.index] s t) ∧
  (∀ (x : Reg) (s : State),
    decode (BitVec.ofNat 16 (0xF01E + x.val * 0x100)) = .ok (.addIVx x) ∧
    decode (BitVec.ofNat 16 (0xF029 + x.val * 0x100)) = .ok (.ldFVx x) ∧
    (∃ t, exec (.addIVx x) s = .next t ∧ t.i.toNat = (s.i.toNat + (s.reg x).toNat) % 65536 ∧
      t.pc = s.pc + 2 ∧ KeptBut [] [.index] s t) ∧
    (∃ t, exec (.ldFVx x) s = .next t ∧ t.i.toNat = (s.reg x).toNat * 5 ∧
      t.pc = s.pc + 2 ∧ KeptBut [] [.index] s t))

/-- R55: the base is I's low 12 bits, and the sum with k is not reduced.
[spec: D6] -/
def Obligations.EffectiveAddressIsLow12BitsPlusOffset : Prop :=
  ∀ (s : State) (k : Nat), s.ea k = (s.i &&& 0x0FFF).toNat + k

/-- R173: the three digits at EA(0), EA(1), EA(2), every other byte unchanged; or ADDRESS_ERROR at the first address
that MemWrite refuses, with nothing written.
[spec: D1 for the word, D8; the record of a fault by D11 and D12, HALTED as a next state by log 12] -/
def Obligations.StoreDecimalDigits : Prop :=
  ∀ (x : Reg) (s : State),
    decode (BitVec.ofNat 16 (0xF033 + x.val * 0x100)) = .ok (.ldBVx x) ∧
    ((∀ k, k < 3 → ¬ Unwritable s (s.ea k)) →
      ∃ t, exec (.ldBVx x) s = .next t ∧
        (t.readByte (s.ea 0)).toNat = (s.reg x).toNat / 100 ∧
        (t.readByte (s.ea 1)).toNat = (s.reg x).toNat / 10 % 10 ∧
        (t.readByte (s.ea 2)).toNat = (s.reg x).toNat % 10 ∧
        MemKeptOutside (s.ea 0) 3 s t ∧ t.pc = s.pc + 2 ∧ KeptBut [] [.memory] s t) ∧
    (∀ k, k < 3 → Unwritable s (s.ea k) → (∀ j, j < k → ¬ Unwritable s (s.ea j)) →
      exec (.ldBVx x) s =
        .next (haltedAt s .addressError (some (BitVec.ofNat 16 (0xF033 + x.val * 0x100))) (some (s.ea k))))

/-- R174: V_k at EA(k) for k = 0..x inclusive, every other byte unchanged, I unchanged; or ADDRESS_ERROR at the first
address that MemWrite refuses, with nothing written.
[spec: D1 for the word, D8; the record of a fault by D11 and D12, HALTED as a next state by log 12] -/
def Obligations.StoreRegisterBlock : Prop :=
  ∀ (x : Reg) (s : State),
    decode (BitVec.ofNat 16 (0xF055 + x.val * 0x100)) = .ok (.ldMemIVx x) ∧
    ((∀ k, k ≤ x.val → ¬ Unwritable s (s.ea k)) →
      ∃ t, exec (.ldMemIVx x) s = .next t ∧ (∀ k : Reg, k ≤ x → t.readByte (s.ea k.val) = s.reg k) ∧
        MemKeptOutside (s.ea 0) (x.val + 1) s t ∧ t.pc = s.pc + 2 ∧ KeptBut [] [.memory] s t) ∧
    (∀ k, k ≤ x.val → Unwritable s (s.ea k) → (∀ j, j < k → ¬ Unwritable s (s.ea j)) →
      exec (.ldMemIVx x) s =
        .next (haltedAt s .addressError (some (BitVec.ofNat 16 (0xF055 + x.val * 0x100))) (some (s.ea k))))

/-- R175: V_k from EA(k) for k = 0..x inclusive, the other registers unchanged, I unchanged; or ADDRESS_ERROR at the
first address above 0xFFF, with no register written.
[spec: D1 for the word, D6; the record of a fault by D11 and D12, HALTED as a next state by log 12] -/
def Obligations.LoadRegisterBlock : Prop :=
  ∀ (x : Reg) (s : State),
    decode (BitVec.ofNat 16 (0xF065 + x.val * 0x100)) = .ok (.ldVxMemI x) ∧
    (s.ea x.val ≤ 0xFFF →
      ∃ t, exec (.ldVxMemI x) s = .next t ∧ (∀ k : Reg, k ≤ x → t.reg k = s.readByte (s.ea k.val)) ∧
        (∀ k : Reg, x < k → t.reg k = s.reg k) ∧ t.pc = s.pc + 2 ∧ KeptBut allRegs [] s t) ∧
    (∀ k, k ≤ x.val → 0xFFF < s.ea k → (∀ j, j < k → s.ea j ≤ 0xFFF) →
      exec (.ldVxMemI x) s =
        .next (haltedAt s .addressError (some (BitVec.ofNat 16 (0xF065 + x.val * 0x100))) (some (s.ea k))))

/-- R62: a word an instruction stores is what the very next fetch at its address reads, wherever that fetch passes the
alignment check.
[spec: none; R62 is marked as derived] -/
def Obligations.FetchSeesTheWordJustStored : Prop :=
  ∀ s : State, ¬ Unwritable s (s.ea 0) → ¬ Unwritable s (s.ea 1) →
    s.cfg.oddPcPolicy = .fetch ∨ s.ea 0 % 2 = 0 →
    ∃ t, exec (.ldMemIVx 1) s = .next t ∧
      (t.setPc (BitVec.ofNat 16 (s.ea 0))).fetch =
        .ok (BitVec.ofNat 16 ((s.reg 0).toNat * 256 + (s.reg 1).toNat))

/-! ### Display (44_display.md) -/

/-- R194.
[spec: D1 for the word] -/
def Obligations.ClearUnsetsEveryPixel : Prop :=
  decode 0x00E0 = .ok .cls ∧ ∀ s : State,
    ∃ t, exec .cls s = .next t ∧ (∀ px py, t.pixel px py = false) ∧ t.calls = .displayClear :: s.calls ∧
      t.pc = s.pc + 2 ∧ KeptBut [] [.framebuffer, .calls] s t

/-- R195, R196: a pixel is inverted once for each sprite bit that falls on it, with wrap; VF is 1 exactly when some
call found its pixel set, that is, when a pixel hit at all was set before or is hit twice; or ADDRESS_ERROR at the
first row address above 0xFFF, with nothing drawn.
[spec: D1 for the word, D9, D17, D18, D19; the record of a fault by D11 and D12, HALTED as a next state by log 12] -/
def Obligations.DrawTogglesSpriteBitsAndReportsCollision : Prop :=
  ∀ (x y : Reg) (n : Nat) (s : State), n < 16 →
    decode (BitVec.ofNat 16 (0xD000 + x.val * 0x100 + y.val * 0x10 + n)) = .ok (.drwVxVyN x y n) ∧
    (s.ea 0 + n ≤ 0x1000 →
      ∃ t, exec (.drwVxVyN x y n) s = .next t ∧
        (∀ px py, px < s.cfg.displayW → py < s.cfg.displayH →
          t.pixel px py = (s.pixel px py ^^ decide (spriteHits s x y n px py % 2 = 1))) ∧
        ((∃ px py, px < s.cfg.displayW ∧ py < s.cfg.displayH ∧ 1 ≤ spriteHits s x y n px py ∧
            (s.pixel px py = true ∨ 2 ≤ spriteHits s x y n px py)) → t.reg 15 = 1) ∧
        ((∀ px py, px < s.cfg.displayW → py < s.cfg.displayH → 1 ≤ spriteHits s x y n px py →
            s.pixel px py = false ∧ spriteHits s x y n px py < 2) → t.reg 15 = 0) ∧
        t.pc = s.pc + 2 ∧ KeptBut [15] [.framebuffer, .calls] s t) ∧
    (∀ r, r < n → 0xFFF < s.ea r → (∀ j, j < r → s.ea j ≤ 0xFFF) →
      exec (.drwVxVyN x y n) s = .next (haltedAt s .addressError
        (some (BitVec.ofNat 16 (0xD000 + x.val * 0x100 + y.val * 0x10 + n))) (some (s.ea r))))

/-- The source's drawing property (95_test_vectors.md S7), for every sprite and screen: a sprite drawn twice at the same
coordinates restores the framebuffer; from a clear screen, the second draw reports a collision if the first set a
pixel.
[spec: D18] -/
def Obligations.DrawTwiceRestoresFramebuffer : Prop :=
  ∀ (x y : Reg) (n : Nat) (s : State), s.Canonical → x ≠ 15 → y ≠ 15 → s.ea 0 + n ≤ 0x1000 →
    ∃ t u, exec (.drwVxVyN x y n) s = .next t ∧ exec (.drwVxVyN x y n) t = .next u ∧ u.fb = s.fb ∧
      (s.fb = [] → t.fb ≠ [] → u.reg 15 = 1)

/-! ### Keys and timers (45_timers_input.md) -/

/-- R211, R212: the answer is any Boolean, for codes above 15 too, and PC follows the skip law.
[spec: D1 for the words, D16, D23; the form of an answer is log 9] -/
def Obligations.KeySkipsFollowAnyAnswer : Prop :=
  ∀ (x : Reg) (s : State),
    decode (BitVec.ofNat 16 (0xE09E + x.val * 0x100)) = .ok (.skpVx x) ∧
    decode (BitVec.ofNat 16 (0xE0A1 + x.val * 0x100)) = .ok (.sknpVx x) ∧
    (∃ t, exec (.skpVx x) s = .next t ∧
      t.pc = (if s.isKeyPressed (s.reg x) = true then s.pc + 4 else s.pc + 2) ∧
      t.keyCount = s.keyCount + 1 ∧ KeptBut [] [.keys] s t) ∧
    (∃ t, exec (.sknpVx x) s = .next t ∧
      t.pc = (if s.isKeyPressed (s.reg x) = true then s.pc + 2 else s.pc + 4) ∧
      t.keyCount = s.keyCount + 1 ∧ KeptBut [] [.keys] s t) ∧
    (∀ (b : Bool) (k : Byte), ({ s with keyFeed := b :: s.keyFeed } : State).isKeyPressed k = b)

/-- R213, R215, R216.
[spec: D1 for the words, log 13] -/
def Obligations.TimerAccessCopies : Prop :=
  ∀ (x : Reg) (s : State),
    decode (BitVec.ofNat 16 (0xF007 + x.val * 0x100)) = .ok (.ldVxDt x) ∧
    decode (BitVec.ofNat 16 (0xF015 + x.val * 0x100)) = .ok (.ldDtVx x) ∧
    decode (BitVec.ofNat 16 (0xF018 + x.val * 0x100)) = .ok (.ldStVx x) ∧
    (∃ t, exec (.ldVxDt x) s = .next t ∧ t.reg x = s.dt ∧ t.pc = s.pc + 2 ∧ KeptBut [x] [] s t) ∧
    (∃ t, exec (.ldDtVx x) s = .next t ∧ t.dt = s.reg x ∧ t.pc = s.pc + 2 ∧ KeptBut [] [.delayTimer] s t) ∧
    (∃ t, exec (.ldStVx x) s = .next t ∧ t.st = s.reg x ∧ t.pc = s.pc + 2 ∧ KeptBut [] [.soundTimer] s t)

/-- R214: the machine waits with PC = a + 2 and V[x] unchanged, and the burst ends.
[spec: D1 for the word; R106 is marked as derived; burstGoesOn, by which the burst's end is said,
is the model's, log 6] -/
def Obligations.WaitForKeySuspendsAndEndsBurst : Prop :=
  ∀ (x : Reg) (s : State),
    decode (BitVec.ofNat 16 (0xF00A + x.val * 0x100)) = .ok (.ldVxK x) ∧
    ∃ t, exec (.ldVxK x) s = .next t ∧ t.execState = .awaitingKey x ∧ t.pc = s.pc + 2 ∧
      (∀ done, t.burstGoesOn done = false) ∧ KeptBut [] [.exec] s t

/-! ### Load and reset (70_reset_and_hazards.md) -/

/-- R261: a LOAD of length 0 or above 3584 signals load_error and changes no state, in any state.
[spec: D12, D29; the phase, the list of events and the record of calls are the model's, log 6, log 7 and log 10] -/
def Obligations.RejectedLoadChangesNothing : Prop :=
  ∀ (s : State) (bytes : List Byte) (es : List Event), s.phase = .between → s.events = .load bytes :: es →
    bytes.length = 0 ∨ 3584 < bytes.length →
    step s = .next ((s.setEvents es).addCall .loadError)

/-- R262, R263, R265: an accepted LOAD, in any state, resets the whole machine: glyphs, then the program from 0x200, 0 in
every other byte, every register at its reset value, display clear, audio stopped, RUNNING at 0x200.
[spec: D4, D29; what is kept is log 18; the phase, the list of events and the record of calls are the model's, log 6,
log 7 and log 10] -/
def Obligations.AcceptedLoadResetsTheMachine : Prop :=
  ∀ (s : State) (bytes : List Byte) (es : List Event), s.phase = .between → s.events = .load bytes :: es →
    1 ≤ bytes.length → bytes.length ≤ 3584 →
    ∃ t, step s = .next t ∧
      (∀ d r : Nat, ∀ (hd : d < 16) (hr : r < 5), t.readByte (d * 5 + r) = (s.cfg.glyphs[d])[r]) ∧
      (∀ a, 80 ≤ a → a < 0x200 → t.readByte a = 0) ∧
      (∀ j (h : j < bytes.length), t.readByte (0x200 + j) = bytes[j]) ∧
      (∀ a, 0x200 + bytes.length ≤ a → t.readByte a = 0) ∧
      (∀ k, t.reg k = 0) ∧ t.i = 0 ∧ t.pc = 0x200 ∧ t.sp = 0 ∧ t.dt = 0 ∧ t.st = 0 ∧
      (∀ px py, t.pixel px py = false) ∧ t.audio = .stopped ∧ t.execState = .running ∧
      t.calls = .audioStop :: .displayClear :: s.calls ∧ t.phase = .between ∧ t.events = es ∧ t.cfg = s.cfg

/-- The state after reset at the values of R20 to R33, with the parameters at their defaults and the font of R52; no
program byte is placed and the scheduler is idle between events [log 3].
[spec: D3, D4, D5, D8, D17, D20, D30; no program byte is log 3] -/
def Obligations.ResetStateHoldsTheListedValues : Prop :=
  let s := State.reset
  (∀ k, s.reg k = 0) ∧ s.i = 0 ∧ s.pc = 0x200 ∧ s.sp = 0 ∧ s.dt = 0 ∧ s.st = 0 ∧ s.execState = .running ∧
  s.fb = [] ∧ s.audio = .stopped ∧
  (List.range 20).map s.readByte =
    [0xF0, 0x90, 0x90, 0x90, 0xF0, 0x20, 0x60, 0x20, 0x20, 0x70, 0xF0, 0x10, 0xF0, 0x80, 0xF0,
     0xF0, 0x10, 0xF0, 0x10, 0xF0] ∧
  (List.range 20).map (fun k => s.readByte (20 + k)) =
    [0x90, 0x90, 0xF0, 0x10, 0x10, 0xF0, 0x80, 0xF0, 0x10, 0xF0, 0xF0, 0x80, 0xF0, 0x90, 0xF0,
     0xF0, 0x10, 0x20, 0x40, 0x40] ∧
  (List.range 20).map (fun k => s.readByte (40 + k)) =
    [0xF0, 0x90, 0xF0, 0x90, 0xF0, 0xF0, 0x90, 0xF0, 0x10, 0xF0, 0xF0, 0x90, 0xF0, 0x90, 0x90,
     0xE0, 0x90, 0xE0, 0x90, 0xE0] ∧
  (List.range 20).map (fun k => s.readByte (60 + k)) =
    [0xF0, 0x80, 0x80, 0x80, 0xF0, 0xE0, 0x90, 0x90, 0x90, 0xE0, 0xF0, 0x80, 0xF0, 0x80, 0xF0,
     0xF0, 0x80, 0xF0, 0x80, 0x80] ∧
  (∀ a, 80 ≤ a → s.readByte a = 0) ∧
  s.cfg.speed = 10 ∧ s.cfg.stackDepth = 16 ∧ s.cfg.displayW = 64 ∧ s.cfg.displayH = 32 ∧
  s.cfg.protectReserved = true ∧ s.cfg.oddPcPolicy = .fault

/-! ### Whole-machine rules -/

/-- A step always answers a next state: the model stops on nothing.
[spec: D11; HALTED as a next state is log 12] -/
def Obligations.EveryStepAnswersNext : Prop := ∀ s : State, ∃ t, step s = .next t

/-- No step changes the parameters [log 1].
[spec: none; parameters as a field of State are log 1] -/
def Obligations.NoStepChangesTheParameters : Prop := ∀ s t : State, step s = .next t → t.cfg = s.cfg

/-- R21, R20: a V register changes only as an ordinary destination, or, VF alone, as the flag of the six instructions
that write one.
[spec: none; the instruction classes are read from R20, R21 and the instruction rules] -/
def Obligations.RegistersChangeOnlyAsDestinationOrFlag : Prop :=
  ∀ (i : Instr) (s t : State) (k : Reg), exec i s = .next t →
    isDestination i k = false → (k = 15 → writesFlag i = false) → t.reg k = s.reg k

/-- R23: PC ends at a + 2 after every instruction that completes, except those that write PC.
[spec: none; it is one sentence of R23 and of R102] -/
def Obligations.PcAdvancesByTwoUnlessWritten : Prop :=
  ∀ (i : Instr) (s t : State), s.execState = .running → exec i s = .next t → t.isHalted = false →
    writesPc i = false → t.pc = s.pc + 2

/-- R22, R24, R27, R28, R29, R32, R33, R50: each part of the state changes only by the instructions that write it; a
faulting instruction changes EXEC.
[spec: D11, D24, D25] -/
def Obligations.EachPartChangesOnlyByItsWriters : Prop :=
  ∀ (i : Instr) (s t : State) (p : Part), exec i s = .next t → writesPart i p = false →
    (p = .exec → canFault i = false) → p.Kept s t

/-- R235: HALTED is left only by an accepted LOAD, and the record stays as it is until then.
[spec: D14, D29; the phase and the list of events are the model's, log 6 and log 7] -/
def Obligations.HaltedIsLeftOnlyByLoad : Prop :=
  ∀ (s t : State) (f : FaultRecord), s.execState = .halted f → step s = .next t →
    t.execState = .halted f ∨
    ∃ bytes es, s.phase = .between ∧ s.events = .load bytes :: es ∧ loadAccepted bytes = true ∧
      t.execState = .running

/-- R242: AWAITING_KEY is left only by a key event, which stores its code, or by an accepted LOAD.
[spec: D29; the phase and the list of events are the model's, log 6 and log 7] -/
def Obligations.AwaitingKeyIsLeftOnlyByKeyOrLoad : Prop :=
  ∀ (s t : State) (x : Reg), s.execState = .awaitingKey x → step s = .next t →
    t.execState = .awaitingKey x ∨
    (∃ k es, s.phase = .between ∧ s.events = .key k :: es ∧ t.execState = .running ∧ (t.reg x).toNat = k.val) ∨
    (∃ bytes es, s.phase = .between ∧ s.events = .load bytes :: es ∧ loadAccepted bytes = true ∧
      t.execState = .running)

/-- R33: nothing reads AUDIO: states that differ in it alone step to states that differ in it at most.
[spec: D25] -/
def Obligations.AudioIsOutputOnly : Prop :=
  ∀ (s : State) (a : Audio), ∃ t u, step s = .next t ∧ step (s.setAudio a) = .next u ∧
    u.setAudio .stopped = t.setAudio .stopped

/-- R190: only DRW reads FB: any other instruction, at states that differ in FB alone, gives states that differ in FB
at most.
[spec: D24] -/
def Obligations.OnlyDrawReadsTheFramebuffer : Prop :=
  ∀ (i : Instr) (s : State) (fb : List (Nat × Nat)), (∀ x y n, i ≠ .drwVxVyN x y n) →
    ∃ t u, exec i s = .next t ∧ exec i (s.setFb fb) = .next u ∧ u.setFb [] = t.setFb []

/-! ### Invariants every step keeps -/

/-- Memory and framebuffer stay in canonical form, from every state that has them so.
[spec: D4, D24; the canonical forms are log 2 and log 11] -/
def Obligations.StepKeepsCanonicalForm : Prop :=
  ∀ s t : State, s.Canonical → step s = .next t → t.Canonical

/-- R23, R24: PC stays within 0x000..0x10FE, SP within STACK_DEPTH, and return addresses within 0x1000.
[spec: D3, D31; R23 marks the range of PC as derived] -/
def Obligations.StepKeepsPcAndStackInRange : Prop :=
  ∀ s t : State, s.InRange → step s = .next t → t.InRange

/-- Where odd fetches fault, every return address on the stack stays even (R101, R122).
[spec: D5] -/
def Obligations.StepKeepsReturnAddressesEven : Prop :=
  ∀ s t : State, s.EvenReturns → step s = .next t → t.EvenReturns

/-- R52, R54: with PROTECT_RESERVED no step changes a byte below 0x200.
[spec: D4, D8] -/
def Obligations.StepKeepsReservedAreaIntact : Prop :=
  ∀ s t : State, s.ReservedIntact → step s = .next t → t.ReservedIntact

/-- R30, R105 to R108, R231: a tick is in progress only in RUNNING or AWAITING_KEY and within SPEED, and a fault record
is one the spec describes, with PC's value.
[spec: D12, D14; the phase is log 6] -/
def Obligations.StepKeepsSchedulerOrderly : Prop :=
  ∀ s t : State, s.Orderly → step s = .next t → t.Orderly

/-- The reset state and the power-on state meet every invariant.
[spec: D4, D22; the power-on values are log 3] -/
def Obligations.ResetAndPowerOnMeetTheInvariants : Prop :=
  (State.reset.Canonical ∧ State.reset.InRange ∧ State.reset.EvenReturns ∧ State.reset.ReservedIntact ∧
    State.reset.Orderly) ∧
  (State.powerOn.Canonical ∧ State.powerOn.InRange ∧ State.powerOn.EvenReturns ∧ State.powerOn.ReservedIntact ∧
    State.powerOn.Orderly)
end

