-- ==== Sys2Proof/Laws/Decode.lean ====
section
/-! SUPPORT. The laws of the fields, the bytes of a word and the masks of the opcode map (R14, R56, R81, R84). -/

namespace Sys2Proof

/-! ### Masks as fields -/

theorem and_maskF000 (w : Word) : w &&& 0xF000#16 = BitVec.ofNat 16 (bits w 15 12 * 4096) := by
  have h : w &&& 0xF000#16 = (w >>> 12) <<< 12 := by
    ext i hi
    rcases i with _ | _ | _ | _ | _ | _ | _ | _ | _ | _ | _ | _ | _ | _ | _ | _ | i <;> first | omega | simp
  rw [h]
  apply BitVec.eq_of_toNat_eq
  have hw := w.isLt
  simp only [BitVec.toNat_shiftLeft, BitVec.toNat_ushiftRight, Nat.shiftLeft_eq, Nat.shiftRight_eq_div_pow, bits,
    BitVec.toNat_ofNat]
  omega

theorem and_maskF00F (w : Word) : w &&& 0xF00F#16 = BitVec.ofNat 16 (bits w 15 12 * 4096 + bits w 3 0) := by
  have h : w &&& 0xF00F#16 = ((w >>> 12) <<< 12) ||| ((w <<< 12) >>> 12) := by
    ext i hi
    rcases i with _ | _ | _ | _ | _ | _ | _ | _ | _ | _ | _ | _ | _ | _ | _ | _ | i <;> first | omega | simp
  have hor : ((w >>> 12) <<< 12) ||| ((w <<< 12) >>> 12) = ((w >>> 12) <<< 12) + ((w <<< 12) >>> 12) := by
    refine (BitVec.add_eq_or_of_and_eq_zero _ _ ?_).symm
    ext i hi
    rcases i with _ | _ | _ | _ | _ | _ | _ | _ | _ | _ | _ | _ | _ | _ | _ | _ | i <;> first | omega | simp
  rw [h, hor]
  apply BitVec.eq_of_toNat_eq
  have hw := w.isLt
  simp only [BitVec.toNat_add, BitVec.toNat_shiftLeft, BitVec.toNat_ushiftRight, Nat.shiftLeft_eq,
    Nat.shiftRight_eq_div_pow, bits, BitVec.toNat_ofNat]
  omega

theorem and_maskF0FF (w : Word) : w &&& 0xF0FF#16 = BitVec.ofNat 16 (bits w 15 12 * 4096 + bits w 7 0) := by
  have h : w &&& 0xF0FF#16 = ((w >>> 12) <<< 12) ||| ((w <<< 8) >>> 8) := by
    ext i hi
    rcases i with _ | _ | _ | _ | _ | _ | _ | _ | _ | _ | _ | _ | _ | _ | _ | _ | i <;> first | omega | simp
  have hor : ((w >>> 12) <<< 12) ||| ((w <<< 8) >>> 8) = ((w >>> 12) <<< 12) + ((w <<< 8) >>> 8) := by
    refine (BitVec.add_eq_or_of_and_eq_zero _ _ ?_).symm
    ext i hi
    rcases i with _ | _ | _ | _ | _ | _ | _ | _ | _ | _ | _ | _ | _ | _ | _ | _ | i <;> first | omega | simp
  rw [h, hor]
  apply BitVec.eq_of_toNat_eq
  have hw := w.isLt
  simp only [BitVec.toNat_add, BitVec.toNat_shiftLeft, BitVec.toNat_ushiftRight, Nat.shiftLeft_eq,
    Nat.shiftRight_eq_div_pow, bits, BitVec.toNat_ofNat]
  omega

theorem and_maskFFFF (w : Word) : w &&& 0xFFFF#16 = w := BitVec.and_allOnes

/-! ### Fields of a word built from fields -/

theorem nibbles_toNat {a b c d : Nat} (h : a * 4096 + b * 256 + c * 16 + d < 65536) :
    (nibbles a b c d).toNat = a * 4096 + b * 256 + c * 16 + d := by
  simp [nibbles, Nat.mod_eq_of_lt h]

theorem fieldX_val (w : Word) : (fieldX w).val = bits w 11 8 := by
  simp only [fieldX, Fin.ofNat, bits]; omega

theorem fieldY_val (w : Word) : (fieldY w).val = bits w 7 4 := by
  simp only [fieldY, Fin.ofNat, bits]; omega

theorem fieldNN_toNat (w : Word) : (fieldNN w).toNat = bits w 7 0 := by
  simp only [fieldNN, BitVec.toNat_ofNat, bits]; omega

theorem fieldNNN_toNat (w : Word) : (fieldNNN w).toNat = bits w 11 0 := by
  simp only [fieldNNN, BitVec.toNat_ofNat, bits]; omega

/-! ### The two bytes of a word -/

/-- A word is the big-endian word of its two bytes (R56). -/
@[simp] theorem wordOfBytes_hi_lo (w : Word) : wordOfBytes (hiByte w) (loByte w) = w := by
  apply BitVec.eq_of_toNat_eq
  have hw := w.isLt
  simp only [wordOfBytes, hiByte, loByte, bits, BitVec.toNat_ofNat]
  omega

@[simp] theorem hiByte_wordOfBytes (hi lo : Byte) : hiByte (wordOfBytes hi lo) = hi := by
  apply BitVec.eq_of_toNat_eq
  have h1 := hi.isLt
  have h2 := lo.isLt
  simp only [wordOfBytes, hiByte, bits, BitVec.toNat_ofNat]
  omega

@[simp] theorem loByte_wordOfBytes (hi lo : Byte) : loByte (wordOfBytes hi lo) = lo := by
  apply BitVec.eq_of_toNat_eq
  have h1 := hi.isLt
  have h2 := lo.isLt
  simp only [wordOfBytes, loByte, bits, BitVec.toNat_ofNat]
  omega

/-- Decoding a word's bytes is decoding the word, and leaves what comes after them (R80). -/
theorem decodeBytes_word (w : Word) (rest : List Byte) :
    decodeBytes (hiByte w :: loByte w :: rest) =
      match decode w with
      | .ok i => .ok (i, rest)
      | .error r => .error r := by
  cases h : decode w <;> simp [decodeBytes, h]

end Sys2Proof
end

