-- ==== Sys2Proof/Laws/State.lean ====
section
/-! SUPPORT. What each update of Machine/Ops.lean does to each field of State, so that no proof unfolds a record
update. The fields an update does not name are unchanged. -/

namespace Sys2Proof.Machine

variable (s : State)

/-! ### setReg -/

@[simp] theorem setReg_cfg (x : Reg) (b : Byte) : (s.setReg x b).cfg = s.cfg := rfl
@[simp] theorem setReg_v (x : Reg) (b : Byte) : (s.setReg x b).v = s.v.set x.val b := rfl
@[simp] theorem setReg_i (x : Reg) (b : Byte) : (s.setReg x b).i = s.i := rfl
@[simp] theorem setReg_pc (x : Reg) (b : Byte) : (s.setReg x b).pc = s.pc := rfl
@[simp] theorem setReg_stack (x : Reg) (b : Byte) : (s.setReg x b).stack = s.stack := rfl
@[simp] theorem setReg_dt (x : Reg) (b : Byte) : (s.setReg x b).dt = s.dt := rfl
@[simp] theorem setReg_st (x : Reg) (b : Byte) : (s.setReg x b).st = s.st := rfl
@[simp] theorem setReg_execState (x : Reg) (b : Byte) : (s.setReg x b).execState = s.execState := rfl
@[simp] theorem setReg_mem (x : Reg) (b : Byte) : (s.setReg x b).mem = s.mem := rfl
@[simp] theorem setReg_fb (x : Reg) (b : Byte) : (s.setReg x b).fb = s.fb := rfl
@[simp] theorem setReg_audio (x : Reg) (b : Byte) : (s.setReg x b).audio = s.audio := rfl
@[simp] theorem setReg_phase (x : Reg) (b : Byte) : (s.setReg x b).phase = s.phase := rfl
@[simp] theorem setReg_events (x : Reg) (b : Byte) : (s.setReg x b).events = s.events := rfl
@[simp] theorem setReg_randFeed (x : Reg) (b : Byte) : (s.setReg x b).randFeed = s.randFeed := rfl
@[simp] theorem setReg_randCount (x : Reg) (b : Byte) : (s.setReg x b).randCount = s.randCount := rfl
@[simp] theorem setReg_keyFeed (x : Reg) (b : Byte) : (s.setReg x b).keyFeed = s.keyFeed := rfl
@[simp] theorem setReg_keyCount (x : Reg) (b : Byte) : (s.setReg x b).keyCount = s.keyCount := rfl
@[simp] theorem setReg_calls (x : Reg) (b : Byte) : (s.setReg x b).calls = s.calls := rfl
@[simp] theorem setReg_readByte (x : Reg) (b : Byte) (k : Nat) : (s.setReg x b).readByte k = s.readByte k := rfl
theorem reg_setReg (x k : Reg) (b : Byte) : (s.setReg x b).reg k = if x = k then b else s.reg k := by
  simp [State.reg, State.setReg, Vector.getElem_set, Fin.ext_iff]
@[simp] theorem reg_setReg_same (x : Reg) (b : Byte) : (s.setReg x b).reg x = b := by
  simp [reg_setReg]
theorem reg_setReg_other {x k : Reg} (h : k ≠ x) (b : Byte) : (s.setReg x b).reg k = s.reg k := by
  simp [reg_setReg, Ne.symm h]

/-! ### setI -/

@[simp] theorem setI_cfg (w : Word) : (s.setI w).cfg = s.cfg := rfl
@[simp] theorem setI_v (w : Word) : (s.setI w).v = s.v := rfl
@[simp] theorem setI_i (w : Word) : (s.setI w).i = w := rfl
@[simp] theorem setI_pc (w : Word) : (s.setI w).pc = s.pc := rfl
@[simp] theorem setI_stack (w : Word) : (s.setI w).stack = s.stack := rfl
@[simp] theorem setI_dt (w : Word) : (s.setI w).dt = s.dt := rfl
@[simp] theorem setI_st (w : Word) : (s.setI w).st = s.st := rfl
@[simp] theorem setI_execState (w : Word) : (s.setI w).execState = s.execState := rfl
@[simp] theorem setI_mem (w : Word) : (s.setI w).mem = s.mem := rfl
@[simp] theorem setI_fb (w : Word) : (s.setI w).fb = s.fb := rfl
@[simp] theorem setI_audio (w : Word) : (s.setI w).audio = s.audio := rfl
@[simp] theorem setI_phase (w : Word) : (s.setI w).phase = s.phase := rfl
@[simp] theorem setI_events (w : Word) : (s.setI w).events = s.events := rfl
@[simp] theorem setI_randFeed (w : Word) : (s.setI w).randFeed = s.randFeed := rfl
@[simp] theorem setI_randCount (w : Word) : (s.setI w).randCount = s.randCount := rfl
@[simp] theorem setI_keyFeed (w : Word) : (s.setI w).keyFeed = s.keyFeed := rfl
@[simp] theorem setI_keyCount (w : Word) : (s.setI w).keyCount = s.keyCount := rfl
@[simp] theorem setI_calls (w : Word) : (s.setI w).calls = s.calls := rfl
@[simp] theorem setI_reg (w : Word) (k : Reg) : (s.setI w).reg k = s.reg k := rfl
@[simp] theorem setI_readByte (w : Word) (k : Nat) : (s.setI w).readByte k = s.readByte k := rfl

/-! ### setPc -/

@[simp] theorem setPc_cfg (w : Word) : (s.setPc w).cfg = s.cfg := rfl
@[simp] theorem setPc_v (w : Word) : (s.setPc w).v = s.v := rfl
@[simp] theorem setPc_i (w : Word) : (s.setPc w).i = s.i := rfl
@[simp] theorem setPc_pc (w : Word) : (s.setPc w).pc = w := rfl
@[simp] theorem setPc_stack (w : Word) : (s.setPc w).stack = s.stack := rfl
@[simp] theorem setPc_dt (w : Word) : (s.setPc w).dt = s.dt := rfl
@[simp] theorem setPc_st (w : Word) : (s.setPc w).st = s.st := rfl
@[simp] theorem setPc_execState (w : Word) : (s.setPc w).execState = s.execState := rfl
@[simp] theorem setPc_mem (w : Word) : (s.setPc w).mem = s.mem := rfl
@[simp] theorem setPc_fb (w : Word) : (s.setPc w).fb = s.fb := rfl
@[simp] theorem setPc_audio (w : Word) : (s.setPc w).audio = s.audio := rfl
@[simp] theorem setPc_phase (w : Word) : (s.setPc w).phase = s.phase := rfl
@[simp] theorem setPc_events (w : Word) : (s.setPc w).events = s.events := rfl
@[simp] theorem setPc_randFeed (w : Word) : (s.setPc w).randFeed = s.randFeed := rfl
@[simp] theorem setPc_randCount (w : Word) : (s.setPc w).randCount = s.randCount := rfl
@[simp] theorem setPc_keyFeed (w : Word) : (s.setPc w).keyFeed = s.keyFeed := rfl
@[simp] theorem setPc_keyCount (w : Word) : (s.setPc w).keyCount = s.keyCount := rfl
@[simp] theorem setPc_calls (w : Word) : (s.setPc w).calls = s.calls := rfl
@[simp] theorem setPc_reg (w : Word) (k : Reg) : (s.setPc w).reg k = s.reg k := rfl
@[simp] theorem setPc_readByte (w : Word) (k : Nat) : (s.setPc w).readByte k = s.readByte k := rfl

/-! ### setStack -/

@[simp] theorem setStack_cfg (ws : List Word) : (s.setStack ws).cfg = s.cfg := rfl
@[simp] theorem setStack_v (ws : List Word) : (s.setStack ws).v = s.v := rfl
@[simp] theorem setStack_i (ws : List Word) : (s.setStack ws).i = s.i := rfl
@[simp] theorem setStack_pc (ws : List Word) : (s.setStack ws).pc = s.pc := rfl
@[simp] theorem setStack_stack (ws : List Word) : (s.setStack ws).stack = ws := rfl
@[simp] theorem setStack_dt (ws : List Word) : (s.setStack ws).dt = s.dt := rfl
@[simp] theorem setStack_st (ws : List Word) : (s.setStack ws).st = s.st := rfl
@[simp] theorem setStack_execState (ws : List Word) : (s.setStack ws).execState = s.execState := rfl
@[simp] theorem setStack_mem (ws : List Word) : (s.setStack ws).mem = s.mem := rfl
@[simp] theorem setStack_fb (ws : List Word) : (s.setStack ws).fb = s.fb := rfl
@[simp] theorem setStack_audio (ws : List Word) : (s.setStack ws).audio = s.audio := rfl
@[simp] theorem setStack_phase (ws : List Word) : (s.setStack ws).phase = s.phase := rfl
@[simp] theorem setStack_events (ws : List Word) : (s.setStack ws).events = s.events := rfl
@[simp] theorem setStack_randFeed (ws : List Word) : (s.setStack ws).randFeed = s.randFeed := rfl
@[simp] theorem setStack_randCount (ws : List Word) : (s.setStack ws).randCount = s.randCount := rfl
@[simp] theorem setStack_keyFeed (ws : List Word) : (s.setStack ws).keyFeed = s.keyFeed := rfl
@[simp] theorem setStack_keyCount (ws : List Word) : (s.setStack ws).keyCount = s.keyCount := rfl
@[simp] theorem setStack_calls (ws : List Word) : (s.setStack ws).calls = s.calls := rfl
@[simp] theorem setStack_reg (ws : List Word) (k : Reg) : (s.setStack ws).reg k = s.reg k := rfl
@[simp] theorem setStack_readByte (ws : List Word) (k : Nat) : (s.setStack ws).readByte k = s.readByte k := rfl

/-! ### setDt -/

@[simp] theorem setDt_cfg (b : Byte) : (s.setDt b).cfg = s.cfg := rfl
@[simp] theorem setDt_v (b : Byte) : (s.setDt b).v = s.v := rfl
@[simp] theorem setDt_i (b : Byte) : (s.setDt b).i = s.i := rfl
@[simp] theorem setDt_pc (b : Byte) : (s.setDt b).pc = s.pc := rfl
@[simp] theorem setDt_stack (b : Byte) : (s.setDt b).stack = s.stack := rfl
@[simp] theorem setDt_dt (b : Byte) : (s.setDt b).dt = b := rfl
@[simp] theorem setDt_st (b : Byte) : (s.setDt b).st = s.st := rfl
@[simp] theorem setDt_execState (b : Byte) : (s.setDt b).execState = s.execState := rfl
@[simp] theorem setDt_mem (b : Byte) : (s.setDt b).mem = s.mem := rfl
@[simp] theorem setDt_fb (b : Byte) : (s.setDt b).fb = s.fb := rfl
@[simp] theorem setDt_audio (b : Byte) : (s.setDt b).audio = s.audio := rfl
@[simp] theorem setDt_phase (b : Byte) : (s.setDt b).phase = s.phase := rfl
@[simp] theorem setDt_events (b : Byte) : (s.setDt b).events = s.events := rfl
@[simp] theorem setDt_randFeed (b : Byte) : (s.setDt b).randFeed = s.randFeed := rfl
@[simp] theorem setDt_randCount (b : Byte) : (s.setDt b).randCount = s.randCount := rfl
@[simp] theorem setDt_keyFeed (b : Byte) : (s.setDt b).keyFeed = s.keyFeed := rfl
@[simp] theorem setDt_keyCount (b : Byte) : (s.setDt b).keyCount = s.keyCount := rfl
@[simp] theorem setDt_calls (b : Byte) : (s.setDt b).calls = s.calls := rfl
@[simp] theorem setDt_reg (b : Byte) (k : Reg) : (s.setDt b).reg k = s.reg k := rfl
@[simp] theorem setDt_readByte (b : Byte) (k : Nat) : (s.setDt b).readByte k = s.readByte k := rfl

/-! ### setSt -/

@[simp] theorem setSt_cfg (b : Byte) : (s.setSt b).cfg = s.cfg := rfl
@[simp] theorem setSt_v (b : Byte) : (s.setSt b).v = s.v := rfl
@[simp] theorem setSt_i (b : Byte) : (s.setSt b).i = s.i := rfl
@[simp] theorem setSt_pc (b : Byte) : (s.setSt b).pc = s.pc := rfl
@[simp] theorem setSt_stack (b : Byte) : (s.setSt b).stack = s.stack := rfl
@[simp] theorem setSt_dt (b : Byte) : (s.setSt b).dt = s.dt := rfl
@[simp] theorem setSt_st (b : Byte) : (s.setSt b).st = b := rfl
@[simp] theorem setSt_execState (b : Byte) : (s.setSt b).execState = s.execState := rfl
@[simp] theorem setSt_mem (b : Byte) : (s.setSt b).mem = s.mem := rfl
@[simp] theorem setSt_fb (b : Byte) : (s.setSt b).fb = s.fb := rfl
@[simp] theorem setSt_audio (b : Byte) : (s.setSt b).audio = s.audio := rfl
@[simp] theorem setSt_phase (b : Byte) : (s.setSt b).phase = s.phase := rfl
@[simp] theorem setSt_events (b : Byte) : (s.setSt b).events = s.events := rfl
@[simp] theorem setSt_randFeed (b : Byte) : (s.setSt b).randFeed = s.randFeed := rfl
@[simp] theorem setSt_randCount (b : Byte) : (s.setSt b).randCount = s.randCount := rfl
@[simp] theorem setSt_keyFeed (b : Byte) : (s.setSt b).keyFeed = s.keyFeed := rfl
@[simp] theorem setSt_keyCount (b : Byte) : (s.setSt b).keyCount = s.keyCount := rfl
@[simp] theorem setSt_calls (b : Byte) : (s.setSt b).calls = s.calls := rfl
@[simp] theorem setSt_reg (b : Byte) (k : Reg) : (s.setSt b).reg k = s.reg k := rfl
@[simp] theorem setSt_readByte (b : Byte) (k : Nat) : (s.setSt b).readByte k = s.readByte k := rfl

/-! ### setExec -/

@[simp] theorem setExec_cfg (e : ExecState) : (s.setExec e).cfg = s.cfg := rfl
@[simp] theorem setExec_v (e : ExecState) : (s.setExec e).v = s.v := rfl
@[simp] theorem setExec_i (e : ExecState) : (s.setExec e).i = s.i := rfl
@[simp] theorem setExec_pc (e : ExecState) : (s.setExec e).pc = s.pc := rfl
@[simp] theorem setExec_stack (e : ExecState) : (s.setExec e).stack = s.stack := rfl
@[simp] theorem setExec_dt (e : ExecState) : (s.setExec e).dt = s.dt := rfl
@[simp] theorem setExec_st (e : ExecState) : (s.setExec e).st = s.st := rfl
@[simp] theorem setExec_execState (e : ExecState) : (s.setExec e).execState = e := rfl
@[simp] theorem setExec_mem (e : ExecState) : (s.setExec e).mem = s.mem := rfl
@[simp] theorem setExec_fb (e : ExecState) : (s.setExec e).fb = s.fb := rfl
@[simp] theorem setExec_audio (e : ExecState) : (s.setExec e).audio = s.audio := rfl
@[simp] theorem setExec_phase (e : ExecState) : (s.setExec e).phase = s.phase := rfl
@[simp] theorem setExec_events (e : ExecState) : (s.setExec e).events = s.events := rfl
@[simp] theorem setExec_randFeed (e : ExecState) : (s.setExec e).randFeed = s.randFeed := rfl
@[simp] theorem setExec_randCount (e : ExecState) : (s.setExec e).randCount = s.randCount := rfl
@[simp] theorem setExec_keyFeed (e : ExecState) : (s.setExec e).keyFeed = s.keyFeed := rfl
@[simp] theorem setExec_keyCount (e : ExecState) : (s.setExec e).keyCount = s.keyCount := rfl
@[simp] theorem setExec_calls (e : ExecState) : (s.setExec e).calls = s.calls := rfl
@[simp] theorem setExec_reg (e : ExecState) (k : Reg) : (s.setExec e).reg k = s.reg k := rfl
@[simp] theorem setExec_readByte (e : ExecState) (k : Nat) : (s.setExec e).readByte k = s.readByte k := rfl

/-! ### setMem -/

@[simp] theorem setMem_cfg (m : List Host.Cell) : (s.setMem m).cfg = s.cfg := rfl
@[simp] theorem setMem_v (m : List Host.Cell) : (s.setMem m).v = s.v := rfl
@[simp] theorem setMem_i (m : List Host.Cell) : (s.setMem m).i = s.i := rfl
@[simp] theorem setMem_pc (m : List Host.Cell) : (s.setMem m).pc = s.pc := rfl
@[simp] theorem setMem_stack (m : List Host.Cell) : (s.setMem m).stack = s.stack := rfl
@[simp] theorem setMem_dt (m : List Host.Cell) : (s.setMem m).dt = s.dt := rfl
@[simp] theorem setMem_st (m : List Host.Cell) : (s.setMem m).st = s.st := rfl
@[simp] theorem setMem_execState (m : List Host.Cell) : (s.setMem m).execState = s.execState := rfl
@[simp] theorem setMem_mem (m : List Host.Cell) : (s.setMem m).mem = m := rfl
@[simp] theorem setMem_fb (m : List Host.Cell) : (s.setMem m).fb = s.fb := rfl
@[simp] theorem setMem_audio (m : List Host.Cell) : (s.setMem m).audio = s.audio := rfl
@[simp] theorem setMem_phase (m : List Host.Cell) : (s.setMem m).phase = s.phase := rfl
@[simp] theorem setMem_events (m : List Host.Cell) : (s.setMem m).events = s.events := rfl
@[simp] theorem setMem_randFeed (m : List Host.Cell) : (s.setMem m).randFeed = s.randFeed := rfl
@[simp] theorem setMem_randCount (m : List Host.Cell) : (s.setMem m).randCount = s.randCount := rfl
@[simp] theorem setMem_keyFeed (m : List Host.Cell) : (s.setMem m).keyFeed = s.keyFeed := rfl
@[simp] theorem setMem_keyCount (m : List Host.Cell) : (s.setMem m).keyCount = s.keyCount := rfl
@[simp] theorem setMem_calls (m : List Host.Cell) : (s.setMem m).calls = s.calls := rfl
@[simp] theorem setMem_reg (m : List Host.Cell) (k : Reg) : (s.setMem m).reg k = s.reg k := rfl

/-! ### setFb -/

@[simp] theorem setFb_cfg (ps : List (Nat × Nat)) : (s.setFb ps).cfg = s.cfg := rfl
@[simp] theorem setFb_v (ps : List (Nat × Nat)) : (s.setFb ps).v = s.v := rfl
@[simp] theorem setFb_i (ps : List (Nat × Nat)) : (s.setFb ps).i = s.i := rfl
@[simp] theorem setFb_pc (ps : List (Nat × Nat)) : (s.setFb ps).pc = s.pc := rfl
@[simp] theorem setFb_stack (ps : List (Nat × Nat)) : (s.setFb ps).stack = s.stack := rfl
@[simp] theorem setFb_dt (ps : List (Nat × Nat)) : (s.setFb ps).dt = s.dt := rfl
@[simp] theorem setFb_st (ps : List (Nat × Nat)) : (s.setFb ps).st = s.st := rfl
@[simp] theorem setFb_execState (ps : List (Nat × Nat)) : (s.setFb ps).execState = s.execState := rfl
@[simp] theorem setFb_mem (ps : List (Nat × Nat)) : (s.setFb ps).mem = s.mem := rfl
@[simp] theorem setFb_fb (ps : List (Nat × Nat)) : (s.setFb ps).fb = ps := rfl
@[simp] theorem setFb_audio (ps : List (Nat × Nat)) : (s.setFb ps).audio = s.audio := rfl
@[simp] theorem setFb_phase (ps : List (Nat × Nat)) : (s.setFb ps).phase = s.phase := rfl
@[simp] theorem setFb_events (ps : List (Nat × Nat)) : (s.setFb ps).events = s.events := rfl
@[simp] theorem setFb_randFeed (ps : List (Nat × Nat)) : (s.setFb ps).randFeed = s.randFeed := rfl
@[simp] theorem setFb_randCount (ps : List (Nat × Nat)) : (s.setFb ps).randCount = s.randCount := rfl
@[simp] theorem setFb_keyFeed (ps : List (Nat × Nat)) : (s.setFb ps).keyFeed = s.keyFeed := rfl
@[simp] theorem setFb_keyCount (ps : List (Nat × Nat)) : (s.setFb ps).keyCount = s.keyCount := rfl
@[simp] theorem setFb_calls (ps : List (Nat × Nat)) : (s.setFb ps).calls = s.calls := rfl
@[simp] theorem setFb_reg (ps : List (Nat × Nat)) (k : Reg) : (s.setFb ps).reg k = s.reg k := rfl
@[simp] theorem setFb_readByte (ps : List (Nat × Nat)) (k : Nat) : (s.setFb ps).readByte k = s.readByte k := rfl

/-! ### setAudio -/

@[simp] theorem setAudio_cfg (a : Audio) : (s.setAudio a).cfg = s.cfg := rfl
@[simp] theorem setAudio_v (a : Audio) : (s.setAudio a).v = s.v := rfl
@[simp] theorem setAudio_i (a : Audio) : (s.setAudio a).i = s.i := rfl
@[simp] theorem setAudio_pc (a : Audio) : (s.setAudio a).pc = s.pc := rfl
@[simp] theorem setAudio_stack (a : Audio) : (s.setAudio a).stack = s.stack := rfl
@[simp] theorem setAudio_dt (a : Audio) : (s.setAudio a).dt = s.dt := rfl
@[simp] theorem setAudio_st (a : Audio) : (s.setAudio a).st = s.st := rfl
@[simp] theorem setAudio_execState (a : Audio) : (s.setAudio a).execState = s.execState := rfl
@[simp] theorem setAudio_mem (a : Audio) : (s.setAudio a).mem = s.mem := rfl
@[simp] theorem setAudio_fb (a : Audio) : (s.setAudio a).fb = s.fb := rfl
@[simp] theorem setAudio_audio (a : Audio) : (s.setAudio a).audio = a := rfl
@[simp] theorem setAudio_phase (a : Audio) : (s.setAudio a).phase = s.phase := rfl
@[simp] theorem setAudio_events (a : Audio) : (s.setAudio a).events = s.events := rfl
@[simp] theorem setAudio_randFeed (a : Audio) : (s.setAudio a).randFeed = s.randFeed := rfl
@[simp] theorem setAudio_randCount (a : Audio) : (s.setAudio a).randCount = s.randCount := rfl
@[simp] theorem setAudio_keyFeed (a : Audio) : (s.setAudio a).keyFeed = s.keyFeed := rfl
@[simp] theorem setAudio_keyCount (a : Audio) : (s.setAudio a).keyCount = s.keyCount := rfl
@[simp] theorem setAudio_calls (a : Audio) : (s.setAudio a).calls = s.calls := rfl
@[simp] theorem setAudio_reg (a : Audio) (k : Reg) : (s.setAudio a).reg k = s.reg k := rfl
@[simp] theorem setAudio_readByte (a : Audio) (k : Nat) : (s.setAudio a).readByte k = s.readByte k := rfl

/-! ### setPhase -/

@[simp] theorem setPhase_cfg (p : Phase) : (s.setPhase p).cfg = s.cfg := rfl
@[simp] theorem setPhase_v (p : Phase) : (s.setPhase p).v = s.v := rfl
@[simp] theorem setPhase_i (p : Phase) : (s.setPhase p).i = s.i := rfl
@[simp] theorem setPhase_pc (p : Phase) : (s.setPhase p).pc = s.pc := rfl
@[simp] theorem setPhase_stack (p : Phase) : (s.setPhase p).stack = s.stack := rfl
@[simp] theorem setPhase_dt (p : Phase) : (s.setPhase p).dt = s.dt := rfl
@[simp] theorem setPhase_st (p : Phase) : (s.setPhase p).st = s.st := rfl
@[simp] theorem setPhase_execState (p : Phase) : (s.setPhase p).execState = s.execState := rfl
@[simp] theorem setPhase_mem (p : Phase) : (s.setPhase p).mem = s.mem := rfl
@[simp] theorem setPhase_fb (p : Phase) : (s.setPhase p).fb = s.fb := rfl
@[simp] theorem setPhase_audio (p : Phase) : (s.setPhase p).audio = s.audio := rfl
@[simp] theorem setPhase_phase (p : Phase) : (s.setPhase p).phase = p := rfl
@[simp] theorem setPhase_events (p : Phase) : (s.setPhase p).events = s.events := rfl
@[simp] theorem setPhase_randFeed (p : Phase) : (s.setPhase p).randFeed = s.randFeed := rfl
@[simp] theorem setPhase_randCount (p : Phase) : (s.setPhase p).randCount = s.randCount := rfl
@[simp] theorem setPhase_keyFeed (p : Phase) : (s.setPhase p).keyFeed = s.keyFeed := rfl
@[simp] theorem setPhase_keyCount (p : Phase) : (s.setPhase p).keyCount = s.keyCount := rfl
@[simp] theorem setPhase_calls (p : Phase) : (s.setPhase p).calls = s.calls := rfl
@[simp] theorem setPhase_reg (p : Phase) (k : Reg) : (s.setPhase p).reg k = s.reg k := rfl
@[simp] theorem setPhase_readByte (p : Phase) (k : Nat) : (s.setPhase p).readByte k = s.readByte k := rfl

/-! ### setEvents -/

@[simp] theorem setEvents_cfg (es : List Event) : (s.setEvents es).cfg = s.cfg := rfl
@[simp] theorem setEvents_v (es : List Event) : (s.setEvents es).v = s.v := rfl
@[simp] theorem setEvents_i (es : List Event) : (s.setEvents es).i = s.i := rfl
@[simp] theorem setEvents_pc (es : List Event) : (s.setEvents es).pc = s.pc := rfl
@[simp] theorem setEvents_stack (es : List Event) : (s.setEvents es).stack = s.stack := rfl
@[simp] theorem setEvents_dt (es : List Event) : (s.setEvents es).dt = s.dt := rfl
@[simp] theorem setEvents_st (es : List Event) : (s.setEvents es).st = s.st := rfl
@[simp] theorem setEvents_execState (es : List Event) : (s.setEvents es).execState = s.execState := rfl
@[simp] theorem setEvents_mem (es : List Event) : (s.setEvents es).mem = s.mem := rfl
@[simp] theorem setEvents_fb (es : List Event) : (s.setEvents es).fb = s.fb := rfl
@[simp] theorem setEvents_audio (es : List Event) : (s.setEvents es).audio = s.audio := rfl
@[simp] theorem setEvents_phase (es : List Event) : (s.setEvents es).phase = s.phase := rfl
@[simp] theorem setEvents_events (es : List Event) : (s.setEvents es).events = es := rfl
@[simp] theorem setEvents_randFeed (es : List Event) : (s.setEvents es).randFeed = s.randFeed := rfl
@[simp] theorem setEvents_randCount (es : List Event) : (s.setEvents es).randCount = s.randCount := rfl
@[simp] theorem setEvents_keyFeed (es : List Event) : (s.setEvents es).keyFeed = s.keyFeed := rfl
@[simp] theorem setEvents_keyCount (es : List Event) : (s.setEvents es).keyCount = s.keyCount := rfl
@[simp] theorem setEvents_calls (es : List Event) : (s.setEvents es).calls = s.calls := rfl
@[simp] theorem setEvents_reg (es : List Event) (k : Reg) : (s.setEvents es).reg k = s.reg k := rfl
@[simp] theorem setEvents_readByte (es : List Event) (k : Nat) : (s.setEvents es).readByte k = s.readByte k := rfl

/-! ### addCall -/

@[simp] theorem addCall_cfg (c : Call) : (s.addCall c).cfg = s.cfg := rfl
@[simp] theorem addCall_v (c : Call) : (s.addCall c).v = s.v := rfl
@[simp] theorem addCall_i (c : Call) : (s.addCall c).i = s.i := rfl
@[simp] theorem addCall_pc (c : Call) : (s.addCall c).pc = s.pc := rfl
@[simp] theorem addCall_stack (c : Call) : (s.addCall c).stack = s.stack := rfl
@[simp] theorem addCall_dt (c : Call) : (s.addCall c).dt = s.dt := rfl
@[simp] theorem addCall_st (c : Call) : (s.addCall c).st = s.st := rfl
@[simp] theorem addCall_execState (c : Call) : (s.addCall c).execState = s.execState := rfl
@[simp] theorem addCall_mem (c : Call) : (s.addCall c).mem = s.mem := rfl
@[simp] theorem addCall_fb (c : Call) : (s.addCall c).fb = s.fb := rfl
@[simp] theorem addCall_audio (c : Call) : (s.addCall c).audio = s.audio := rfl
@[simp] theorem addCall_phase (c : Call) : (s.addCall c).phase = s.phase := rfl
@[simp] theorem addCall_events (c : Call) : (s.addCall c).events = s.events := rfl
@[simp] theorem addCall_randFeed (c : Call) : (s.addCall c).randFeed = s.randFeed := rfl
@[simp] theorem addCall_randCount (c : Call) : (s.addCall c).randCount = s.randCount := rfl
@[simp] theorem addCall_keyFeed (c : Call) : (s.addCall c).keyFeed = s.keyFeed := rfl
@[simp] theorem addCall_keyCount (c : Call) : (s.addCall c).keyCount = s.keyCount := rfl
@[simp] theorem addCall_calls (c : Call) : (s.addCall c).calls = c :: s.calls := rfl
@[simp] theorem addCall_reg (c : Call) (k : Reg) : (s.addCall c).reg k = s.reg k := rfl
@[simp] theorem addCall_readByte (c : Call) (k : Nat) : (s.addCall c).readByte k = s.readByte k := rfl

/-! ### drawn -/

@[simp] theorem drawn_cfg : s.drawn.cfg = s.cfg := rfl
@[simp] theorem drawn_v : s.drawn.v = s.v := rfl
@[simp] theorem drawn_i : s.drawn.i = s.i := rfl
@[simp] theorem drawn_pc : s.drawn.pc = s.pc := rfl
@[simp] theorem drawn_stack : s.drawn.stack = s.stack := rfl
@[simp] theorem drawn_dt : s.drawn.dt = s.dt := rfl
@[simp] theorem drawn_st : s.drawn.st = s.st := rfl
@[simp] theorem drawn_execState : s.drawn.execState = s.execState := rfl
@[simp] theorem drawn_mem : s.drawn.mem = s.mem := rfl
@[simp] theorem drawn_fb : s.drawn.fb = s.fb := rfl
@[simp] theorem drawn_audio : s.drawn.audio = s.audio := rfl
@[simp] theorem drawn_phase : s.drawn.phase = s.phase := rfl
@[simp] theorem drawn_events : s.drawn.events = s.events := rfl
@[simp] theorem drawn_randFeed : s.drawn.randFeed = s.randFeed.tail := rfl
@[simp] theorem drawn_randCount : s.drawn.randCount = s.randCount + 1 := rfl
@[simp] theorem drawn_keyFeed : s.drawn.keyFeed = s.keyFeed := rfl
@[simp] theorem drawn_keyCount : s.drawn.keyCount = s.keyCount := rfl
@[simp] theorem drawn_calls : s.drawn.calls = s.calls := rfl
@[simp] theorem drawn_reg (k : Reg) : s.drawn.reg k = s.reg k := rfl
@[simp] theorem drawn_readByte (k : Nat) : s.drawn.readByte k = s.readByte k := rfl

/-! ### queried -/

@[simp] theorem queried_cfg : s.queried.cfg = s.cfg := rfl
@[simp] theorem queried_v : s.queried.v = s.v := rfl
@[simp] theorem queried_i : s.queried.i = s.i := rfl
@[simp] theorem queried_pc : s.queried.pc = s.pc := rfl
@[simp] theorem queried_stack : s.queried.stack = s.stack := rfl
@[simp] theorem queried_dt : s.queried.dt = s.dt := rfl
@[simp] theorem queried_st : s.queried.st = s.st := rfl
@[simp] theorem queried_execState : s.queried.execState = s.execState := rfl
@[simp] theorem queried_mem : s.queried.mem = s.mem := rfl
@[simp] theorem queried_fb : s.queried.fb = s.fb := rfl
@[simp] theorem queried_audio : s.queried.audio = s.audio := rfl
@[simp] theorem queried_phase : s.queried.phase = s.phase := rfl
@[simp] theorem queried_events : s.queried.events = s.events := rfl
@[simp] theorem queried_randFeed : s.queried.randFeed = s.randFeed := rfl
@[simp] theorem queried_randCount : s.queried.randCount = s.randCount := rfl
@[simp] theorem queried_keyFeed : s.queried.keyFeed = s.keyFeed.tail := rfl
@[simp] theorem queried_keyCount : s.queried.keyCount = s.keyCount + 1 := rfl
@[simp] theorem queried_calls : s.queried.calls = s.calls := rfl
@[simp] theorem queried_reg (k : Reg) : s.queried.reg k = s.reg k := rfl
@[simp] theorem queried_readByte (k : Nat) : s.queried.readByte k = s.readByte k := rfl

end Sys2Proof.Machine
end

