-- ==== Sys2Proof/Laws/Framebuffer.lean ====
section
/-! SUPPORT. The laws of the framebuffer: a toggle changes its pixel and no other (R192), and keeps the canonical form
[log 11]. -/

namespace Sys2Proof.Machine

theorem mem_framebufferInsert {p q : Nat × Nat} {fb : List (Nat × Nat)} :
    q ∈ Framebuffer.insert p fb ↔ q = p ∨ q ∈ fb := by
  induction fb with
  | nil => simp [Framebuffer.insert]
  | cons r fb ih =>
    simp only [Framebuffer.insert]
    split
    · simp
    · simp only [List.mem_cons, ih]; grind

/-- A toggle inverts its own pixel and leaves every other one (R192). -/
theorem mem_toggle {fb : List (Nat × Nat)} {p q : Nat × Nat} :
    q ∈ Framebuffer.toggle fb p ↔ (if q = p then p ∉ fb else q ∈ fb) := by
  unfold Framebuffer.toggle
  split
  · rename_i h
    simp only [List.mem_filter, decide_eq_true_eq]
    split <;> simp_all
  · rename_i h
    simp only [mem_framebufferInsert]
    split <;> simp_all

theorem framebufferInsert_sorted {p : Nat × Nat} {fb : List (Nat × Nat)} (h : fb.Pairwise pixelBefore) (hp : p ∉ fb) :
    (Framebuffer.insert p fb).Pairwise pixelBefore := by
  induction fb with
  | nil => simp [Framebuffer.insert]
  | cons q fb ih =>
    obtain ⟨hq, hfb⟩ := List.pairwise_cons.mp h
    have hne : p ≠ q := fun e => hp (by simp [e])
    simp only [Framebuffer.insert]
    split
    · rename_i hlt
      refine List.pairwise_cons.mpr ⟨fun r hr => ?_, h⟩
      rcases List.mem_cons.mp hr with rfl | hr
      · exact hlt
      · have := hq r hr
        unfold pixelBefore at *
        omega
    · rename_i hge
      refine List.pairwise_cons.mpr ⟨fun r hr => ?_, ih hfb fun hm => hp (by simp [hm])⟩
      rcases mem_framebufferInsert.mp hr with rfl | hr
      · have hcases : r.1 ≠ q.1 ∨ r.2 ≠ q.2 := by
          by_contra hc
          simp only [not_or, not_not] at hc
          exact hne (Prod.ext hc.1 hc.2)
        unfold pixelBefore at *
        omega
      · exact hq r hr

/-- A toggle of a pixel inside the display keeps the canonical form. -/
theorem Framebuffer.toggle_wf {cfg : Config} {fb : List (Nat × Nat)} (h : Framebuffer.wf cfg fb) {p : Nat × Nat}
    (hp : p.1 < cfg.displayW ∧ p.2 < cfg.displayH) : Framebuffer.wf cfg (Framebuffer.toggle fb p) := by
  unfold Framebuffer.toggle
  split
  · exact ⟨h.1.filter _, fun q hq => h.2 q (List.mem_filter.mp hq).1⟩
  · rename_i hn
    refine ⟨framebufferInsert_sorted h.1 hn, fun q hq => ?_⟩
    rcases mem_framebufferInsert.mp hq with rfl | hq
    · exact hp
    · exact h.2 q hq

/-- `wrapPixel` names a pixel of the display (R192). -/
theorem wrapPixel_inside (cfg : Config) (p : Nat × Nat) :
    (wrapPixel cfg p).1 < cfg.displayW ∧ (wrapPixel cfg p).2 < cfg.displayH :=
  ⟨Nat.mod_lt _ cfg.displayW_pos, Nat.mod_lt _ cfg.displayH_pos⟩

/-- Two canonical framebuffers with the same set pixels are the same list. -/
theorem framebuffer_ext {cfg : Config} {fb fb' : List (Nat × Nat)} (h : Framebuffer.wf cfg fb)
    (h' : Framebuffer.wf cfg fb') (hm : ∀ p, p ∈ fb ↔ p ∈ fb') : fb = fb' := by
  have irr : ∀ p, ¬ pixelBefore p p := by intro p; unfold pixelBefore; omega
  have nodup : ∀ l : List (Nat × Nat), l.Pairwise pixelBefore → l.Nodup := by
    intro l hl
    refine List.Pairwise.imp ?_ hl
    intro a b hab e
    exact irr a (e ▸ hab)
  have perm : fb.Perm fb' := (List.perm_ext_iff_of_nodup (nodup _ h.1) (nodup _ h'.1)).mpr hm
  refine List.Perm.eq_of_pairwise ?_ h.1 h'.1 perm
  intro a b _ _ hab hba
  unfold pixelBefore at hab hba
  omega

/-! ### `setPixel` and `plot` -/

@[simp] theorem setPixel_snd (s : State) (x y : Nat) :
    (s.setPixel x y).2 = s.pixel (wrapPixel s.cfg (x, y)).1 (wrapPixel s.cfg (x, y)).2 := rfl

@[simp] theorem setPixel_fb (s : State) (x y : Nat) :
    (s.setPixel x y).1.fb = Framebuffer.toggle s.fb (wrapPixel s.cfg (x, y)) := rfl

/-- Drawing changes FB and the record of calls, and nothing else. -/
theorem plot_frame (ps : List (Nat × Nat)) (s : State) :
    ∃ fb calls, (s.plot ps).1 = { s with fb := fb, calls := calls } := by
  induction ps generalizing s with
  | nil => exact ⟨s.fb, s.calls, rfl⟩
  | cons p ps ih =>
    obtain ⟨fb, calls, h⟩ := ih (s.setPixel p.1 p.2).1
    exact ⟨fb, calls, h⟩

theorem plot_fb_wf (ps : List (Nat × Nat)) {s : State} (h : Framebuffer.wf s.cfg s.fb) :
    Framebuffer.wf s.cfg (s.plot ps).1.fb := by
  induction ps generalizing s with
  | nil => exact h
  | cons p ps ih => exact ih (s := (s.setPixel p.1 p.2).1) (Framebuffer.toggle_wf h (wrapPixel_inside _ _))

theorem reset_fb_wf : Framebuffer.wf State.reset.cfg State.reset.fb := by
  refine ⟨List.Pairwise.nil, fun p hp => ?_⟩
  simp [State.reset] at hp

end Sys2Proof.Machine
end

