-- ==== Sys2Proof/Laws/Memory.lean ====
section
/-! SUPPORT. The laws of memory: what a byte reads as after a write (R60), and that every write keeps the canonical form
[log 2]. -/

namespace Sys2Proof.Machine

/-! ### Read after write -/

theorem lookup_insert (m : List Host.Cell) (a b : Nat) (v : Byte) :
    Memory.lookup (Memory.insert m a v) b = if a = b then some v else Memory.lookup m b := by
  induction m with
  | nil => simp [Memory.insert, Memory.lookup]
  | cons c m ih =>
    obtain ⟨d, w⟩ := c
    simp only [Memory.insert]
    split
    · simp [Memory.lookup]
    · split
      · simp only [Memory.lookup]; grind
      · simp only [Memory.lookup, ih]; grind

theorem lookup_erase (m : List Host.Cell) (a b : Nat) :
    Memory.lookup (Memory.erase m a) b = if a = b then none else Memory.lookup m b := by
  induction m with
  | nil => simp [Memory.erase, Memory.lookup]
  | cons c m ih =>
    obtain ⟨d, w⟩ := c
    simp only [Memory.erase, List.filter_cons, Memory.lookup] at ih ⊢
    by_cases h : d = a
    · simp only [h, ne_eq, not_true_eq_false, decide_false, Bool.false_eq_true, if_false, ih]
      split <;> simp_all
    · simp only [ne_eq, h, not_false_eq_true, decide_true, if_true, Memory.lookup, ih]
      grind

/-- A byte reads as what was last written to it, and a write leaves every other byte alone (R60). -/
theorem Memory.read_write (cfg : Config) (m : List Host.Cell) (a b : Nat) (v : Byte) :
    Memory.read cfg (Memory.write cfg m a v) b = if a = b then v else Memory.read cfg m b := by
  unfold Memory.read Memory.write
  split <;> simp only [lookup_insert, lookup_erase] <;> split <;> simp_all

theorem readByte_writeByte (s : State) (a b : Nat) (v : Byte) :
    (s.writeByte a v).readByte b = if a = b then v else s.readByte b :=
  Memory.read_write s.cfg s.mem a b v

/-- The bytes a store writes are those of its list, and every other byte reads as before. -/
theorem readByte_storeBytes (bs : List Byte) (s : State) (base a : Nat) :
    (s.storeBytes base bs).readByte a =
      if h : base ≤ a ∧ a < base + bs.length then bs[a - base]'(by omega) else s.readByte a := by
  induction bs generalizing s base with
  | nil => simp only [State.storeBytes, List.length_nil]; rw [dif_neg (by omega)]
  | cons b bs ih =>
    simp only [State.storeBytes, ih, readByte_writeByte, List.length_cons]
    by_cases hb : base = a
    · subst hb
      simp
    · by_cases h : base + 1 ≤ a ∧ a < base + 1 + bs.length
      · rw [dif_pos h, dif_pos (by omega)]
        have hk : a - base = (a - (base + 1)) + 1 := by omega
        simp [hk]
      · rw [dif_neg h, if_neg hb, dif_neg (by omega)]

/-! ### The canonical form -/

theorem mem_insert {m : List Host.Cell} {a : Nat} {v : Byte} {c : Host.Cell} (h : c ∈ Memory.insert m a v) :
    c = (a, v) ∨ c ∈ m := by
  induction m with
  | nil => simp_all [Memory.insert]
  | cons d m ih =>
    simp only [Memory.insert] at h
    split at h
    · simpa using h
    · split at h
      · have := List.mem_cons.mp h; grind
      · rcases List.mem_cons.mp h with h | h
        · simp [h]
        · rcases ih h with h | h <;> simp [h]

theorem insert_rising (m : List Host.Cell) (a : Nat) (v : Byte)
    (h : m.Pairwise (fun c d => c.1 < d.1)) : (Memory.insert m a v).Pairwise (fun c d => c.1 < d.1) := by
  induction m with
  | nil => simp [Memory.insert]
  | cons d m ih =>
    obtain ⟨hd, hm⟩ := List.pairwise_cons.mp h
    simp only [Memory.insert]
    split
    · rename_i hlt
      refine List.pairwise_cons.mpr ⟨fun c hc => ?_, h⟩
      rcases List.mem_cons.mp hc with rfl | hc
      · exact hlt
      · exact Nat.lt_trans hlt (hd c hc)
    · split
      · rename_i heq
        exact List.pairwise_cons.mpr ⟨fun c hc => heq ▸ hd c hc, hm⟩
      · refine List.pairwise_cons.mpr ⟨fun c hc => ?_, ih hm⟩
        rcases mem_insert hc with rfl | hc
        · simp only; omega
        · exact hd c hc

/-- A write inside the 4096 bytes keeps the canonical form. -/
theorem Memory.write_wf {cfg : Config} {m : List Host.Cell} (h : Memory.wf cfg m) {a : Nat} (ha : a < memSize)
    (v : Byte) : Memory.wf cfg (Memory.write cfg m a v) := by
  unfold Memory.write
  split
  · exact ⟨h.1.filter _, fun c hc => h.2 c (List.mem_filter.mp hc).1⟩
  · rename_i hv
    refine ⟨insert_rising m a v h.1, fun c hc => ?_⟩
    rcases mem_insert hc with rfl | hc
    · exact ⟨ha, hv⟩
    · exact h.2 c hc

/-- A store that stays inside the 4096 bytes keeps the canonical form. -/
theorem storeBytes_wf (bs : List Byte) {s : State} (h : Memory.wf s.cfg s.mem) {base : Nat}
    (hb : base + bs.length ≤ memSize) : Memory.wf (s.storeBytes base bs).cfg (s.storeBytes base bs).mem := by
  induction bs generalizing s base with
  | nil => exact h
  | cons b bs ih =>
    simp only [List.length_cons] at hb
    refine ih (s := s.writeByte base b) ?_ (by omega)
    exact Memory.write_wf h (by omega) b

/-- A store changes memory and nothing else. -/
theorem storeBytes_eq (bs : List Byte) (s : State) (base : Nat) :
    s.storeBytes base bs = s.setMem (s.storeBytes base bs).mem := by
  induction bs generalizing s base with
  | nil => rfl
  | cons b bs ih =>
    simp only [State.storeBytes]
    rw [ih]
    rfl

theorem reset_mem_wf : Memory.wf State.reset.cfg State.reset.mem := by
  refine ⟨List.Pairwise.nil, fun c hc => ?_⟩
  simp [State.reset] at hc

end Sys2Proof.Machine
end

