-- ==== Sys2Proof/Laws/Ops.lean ====
section
/-! SUPPORT. One lemma for each shared operation of Machine/Ops.lean, Operands.lean, Flags.lean and Engine.lean that says
everything it can do. -/

namespace Sys2Proof.Machine

/-! ### PC -/

/-- The skip law (R128): PC moves by a further 2 exactly when the condition holds, and nothing else changes. -/
theorem skipIf_eq (s : State) (c : Bool) : s.skipIf c = s.setPc (if c then s.pc + 2 else s.pc) := by
  cases c <;> rfl

theorem advance_eq (s : State) : s.advance = s.setPc (s.pc + 2) := rfl

@[simp] theorem advance_pc (s : State) : s.advance.pc = s.pc + 2 := rfl

/-! ### The call stack -/

/-- Push succeeds exactly on a stack that is not full, and puts its value on top (R25). -/
theorem push_eq_some {s t : State} {w : Word} :
    s.push w = some t ↔ s.sp < s.cfg.stackDepth ∧ t = s.setStack (w :: s.stack) := by
  unfold State.push
  split <;> simp_all [eq_comm]

theorem push_eq_none {s : State} {w : Word} : s.push w = none ↔ s.cfg.stackDepth ≤ s.sp := by
  unfold State.push
  split <;> simp_all

/-- Pop succeeds exactly on a stack that is not empty, and takes its top (R26). -/
theorem pop_eq_some {s t : State} {w : Word} :
    s.pop = some (w, t) ↔ ∃ ws, s.stack = w :: ws ∧ t = s.setStack ws := by
  unfold State.pop
  cases s.stack <;> simp [eq_comm]

theorem pop_eq_none {s : State} : s.pop = none ↔ s.sp = 0 := by
  unfold State.pop State.sp
  cases s.stack <;> simp

/-! ### Fault entry -/

/-- Fault entry changes EXEC and nothing else (R234). -/
theorem raise_eq (s : State) (code : FaultCode) (word : Option Word) (addr : Option Nat) :
    s.raise code word addr = .next (s.setExec (.halted ⟨code, s.pc, word, addr⟩)) := rfl

/-! ### The status port -/

/-- The table of R231 gives each fault a code of its own. -/
theorem faultCode_number_injective : ∀ c d : FaultCode, c.number = d.number → c = d := by
  intro c d; cases c <;> cases d <;> decide

/-- The codes are 1 to 6 (R231). -/
theorem faultCode_number_range (c : FaultCode) : 1 ≤ c.number ∧ c.number ≤ 6 := by
  cases c <;> decide

/-- The port shows all of EXEC: equal readings mean equal execution states, records included (R244). -/
theorem status_eq_iff {s t : State} : s.status = t.status ↔ s.execState = t.execState := by
  refine ⟨fun h => ?_, fun h => by simp only [State.status, h]⟩
  unfold State.status at h
  cases hs : s.execState with
  | halted f =>
    cases ht : t.execState with
    | halted g =>
      obtain ⟨c, p, w, a⟩ := f
      obtain ⟨d, q, v, b⟩ := g
      simp only [hs, ht, Status.halted.injEq] at h
      obtain ⟨h1, rfl, rfl, rfl⟩ := h
      rw [faultCode_number_injective c d h1]
    | _ => simp [hs, ht] at h
  | _ => cases ht : t.execState <;> simp_all

/-- The port shows a fault's code, PC, word and address as they were raised (R234, R244). -/
theorem status_halted (s : State) (code : FaultCode) (pc : Word) (word : Option Word) (addr : Option Nat) :
    (s.setExec (.halted ⟨code, pc, word, addr⟩)).status = .halted code.number pc word addr := rfl

/-! ### Address checks -/

/-- No address fails exactly when all pass (R59). -/
theorem firstFailing_eq_none {ok : Nat → Bool} {base n : Nat} :
    firstFailing ok base n = none ↔ ∀ k, k < n → ok (base + k) = true := by
  induction n generalizing base with
  | zero => simp [firstFailing]
  | succ n ih =>
    simp only [firstFailing]
    split
    · rename_i h
      rw [ih]
      constructor
      · intro hk k hlt
        cases k with
        | zero => simpa using h
        | succ k => have := hk k (by omega); rwa [Nat.add_right_comm, Nat.add_assoc] at this
      · intro hk k hlt
        have := hk (k + 1) (by omega)
        rwa [show base + 1 + k = base + (k + 1) by omega]
    · rename_i h
      simp only [reduceCtorEq, false_iff]
      intro hk
      exact h (by simpa using hk 0 (by omega))

/-- The failing address reported is the lowest one (R59, R233). -/
theorem firstFailing_eq_some {ok : Nat → Bool} {base n a : Nat} :
    firstFailing ok base n = some a ↔
      ∃ k, k < n ∧ a = base + k ∧ ok a = false ∧ ∀ j, j < k → ok (base + j) = true := by
  induction n generalizing base with
  | zero => simp [firstFailing]
  | succ n ih =>
    simp only [firstFailing]
    split
    · rename_i h
      rw [ih]
      constructor
      · rintro ⟨k, hk, rfl, hf, hj⟩
        refine ⟨k + 1, by omega, by omega, hf, fun j hjk => ?_⟩
        cases j with
        | zero => simpa using h
        | succ j => have := hj j (by omega); rwa [show base + (j + 1) = base + 1 + j by omega]
      · rintro ⟨k, hk, rfl, hf, hj⟩
        cases k with
        | zero => simp only [Nat.add_zero] at hf; simp [h] at hf
        | succ k =>
          refine ⟨k, by omega, by omega, hf, fun j hjk => ?_⟩
          have := hj (j + 1) (by omega)
          rwa [show base + 1 + j = base + (j + 1) by omega]
    · rename_i h
      simp only [Option.some.injEq]
      constructor
      · rintro rfl
        exact ⟨0, by omega, rfl, by simpa using h, by intro j hj; omega⟩
      · rintro ⟨k, hk, rfl, hf, hj⟩
        cases k with
        | zero => rfl
        | succ k => exact absurd (by simpa using hj 0 (by omega)) h

theorem canRead_eq_true {s : State} {a : Nat} : s.canRead a = true ↔ a ≤ 0xFFF := by
  simp [State.canRead]

theorem canWrite_eq_true {s : State} {a : Nat} :
    s.canWrite a = true ↔ a ≤ 0xFFF ∧ (s.cfg.protectReserved = true → 0x200 ≤ a) := by
  cases h : s.cfg.protectReserved <;> simp [State.canWrite, h]

/-- `n` bytes at `EA(0)` up can be read exactly when they end inside memory (R53, R55). -/
theorem badRead_eq_none {s : State} {n : Nat} : s.badRead n = none ↔ s.ea 0 + n ≤ 4096 := by
  have hea : s.ea 0 < 4096 := by unfold State.ea; omega
  simp only [State.badRead, firstFailing_eq_none, canRead_eq_true]
  constructor
  · intro h
    cases n with
    | zero => omega
    | succ n => have := h n (by omega); omega
  · intro h k hk
    omega

/-- `n` bytes at `EA(0)` up, `n` at least 1, can be written exactly when they end inside memory and, with
PROTECT_RESERVED, start at 0x200 or above (R54, R55). -/
theorem badWrite_eq_none {s : State} {n : Nat} (hn : 0 < n) :
    s.badWrite n = none ↔ s.ea 0 + n ≤ 4096 ∧ (s.cfg.protectReserved = true → 0x200 ≤ s.ea 0) := by
  simp only [State.badWrite, firstFailing_eq_none, canWrite_eq_true]
  constructor
  · intro h
    have h0 := h 0 hn
    have h1 := h (n - 1) (by omega)
    exact ⟨by omega, fun hp => by simpa using h0.2 hp⟩
  · intro h k hk
    exact ⟨by omega, fun hp => by have := h.2 hp; omega⟩

theorem memRead_eq_ok {s : State} {a : Nat} {b : Byte} :
    s.memRead a = .ok b ↔ a ≤ 0xFFF ∧ b = s.readByte a := by
  unfold State.memRead
  by_cases h : a ≤ 0xFFF <;> simp [State.canRead, h, eq_comm]

theorem memRead_eq_error {s : State} {a b : Nat} : s.memRead a = .error b ↔ 0xFFF < a ∧ b = a := by
  unfold State.memRead
  by_cases h : a ≤ 0xFFF
  · simp [State.canRead, h]
  · simp [State.canRead, h, eq_comm]
    omega

/-! ### Stores and register blocks -/

@[simp] theorem storeBytes_cfg (bs : List Byte) (s : State) (base : Nat) : (s.storeBytes base bs).cfg = s.cfg := by
  rw [storeBytes_eq]; rfl
@[simp] theorem storeBytes_v (bs : List Byte) (s : State) (base : Nat) : (s.storeBytes base bs).v = s.v := by
  rw [storeBytes_eq]; rfl
@[simp] theorem storeBytes_i (bs : List Byte) (s : State) (base : Nat) : (s.storeBytes base bs).i = s.i := by
  rw [storeBytes_eq]; rfl
@[simp] theorem storeBytes_pc (bs : List Byte) (s : State) (base : Nat) : (s.storeBytes base bs).pc = s.pc := by
  rw [storeBytes_eq]; rfl
@[simp] theorem storeBytes_stack (bs : List Byte) (s : State) (base : Nat) : (s.storeBytes base bs).stack = s.stack := by
  rw [storeBytes_eq]; rfl
@[simp] theorem storeBytes_dt (bs : List Byte) (s : State) (base : Nat) : (s.storeBytes base bs).dt = s.dt := by
  rw [storeBytes_eq]; rfl
@[simp] theorem storeBytes_st (bs : List Byte) (s : State) (base : Nat) : (s.storeBytes base bs).st = s.st := by
  rw [storeBytes_eq]; rfl
@[simp] theorem storeBytes_execState (bs : List Byte) (s : State) (base : Nat) : (s.storeBytes base bs).execState = s.execState := by
  rw [storeBytes_eq]; rfl
@[simp] theorem storeBytes_fb (bs : List Byte) (s : State) (base : Nat) : (s.storeBytes base bs).fb = s.fb := by
  rw [storeBytes_eq]; rfl
@[simp] theorem storeBytes_audio (bs : List Byte) (s : State) (base : Nat) : (s.storeBytes base bs).audio = s.audio := by
  rw [storeBytes_eq]; rfl
@[simp] theorem storeBytes_phase (bs : List Byte) (s : State) (base : Nat) : (s.storeBytes base bs).phase = s.phase := by
  rw [storeBytes_eq]; rfl
@[simp] theorem storeBytes_events (bs : List Byte) (s : State) (base : Nat) : (s.storeBytes base bs).events = s.events := by
  rw [storeBytes_eq]; rfl
@[simp] theorem storeBytes_randFeed (bs : List Byte) (s : State) (base : Nat) : (s.storeBytes base bs).randFeed = s.randFeed := by
  rw [storeBytes_eq]; rfl
@[simp] theorem storeBytes_randCount (bs : List Byte) (s : State) (base : Nat) : (s.storeBytes base bs).randCount = s.randCount := by
  rw [storeBytes_eq]; rfl
@[simp] theorem storeBytes_keyFeed (bs : List Byte) (s : State) (base : Nat) : (s.storeBytes base bs).keyFeed = s.keyFeed := by
  rw [storeBytes_eq]; rfl
@[simp] theorem storeBytes_keyCount (bs : List Byte) (s : State) (base : Nat) : (s.storeBytes base bs).keyCount = s.keyCount := by
  rw [storeBytes_eq]; rfl
@[simp] theorem storeBytes_calls (bs : List Byte) (s : State) (base : Nat) : (s.storeBytes base bs).calls = s.calls := by
  rw [storeBytes_eq]; rfl
@[simp] theorem storeBytes_reg (bs : List Byte) (s : State) (base : Nat) (k : Reg) : (s.storeBytes base bs).reg k = s.reg k := by
  rw [storeBytes_eq]; rfl

theorem mem_regsUpTo {x k : Reg} : k ∈ regsUpTo x ↔ k ≤ x := by
  have hall : ∀ k : Reg, k ∈ allRegs := by decide
  simp [regsUpTo, hall k]

theorem regsUpTo_length (x : Reg) : (regsUpTo x).length = x.val + 1 := by
  revert x; decide

theorem regsUpTo_getElem? : ∀ (x k : Reg), k ≤ x → (regsUpTo x)[k.val]? = some k := by decide

theorem regBytes_length (s : State) (x : Reg) : (s.regBytes x).length = x.val + 1 := by
  simp [State.regBytes, regsUpTo_length]

/-- Byte `k` of the block is V_k (R56, R174). -/
theorem regBytes_getElem? (s : State) {x k : Reg} (h : k ≤ x) : (s.regBytes x)[k.val]? = some (s.reg k) := by
  simp [State.regBytes, List.getElem?_map, regsUpTo_getElem? x k h]

/-- A block load changes V registers and nothing else. -/
theorem loadRegs_eq (ks : List Reg) (s : State) : s.loadRegs ks = { s with v := (s.loadRegs ks).v } := by
  induction ks generalizing s with
  | nil => rfl
  | cons k ks ih =>
    simp only [State.loadRegs]
    rw [ih]
    rfl

@[simp] theorem loadRegs_cfg (ks : List Reg) (s : State) : (s.loadRegs ks).cfg = s.cfg := by
  rw [loadRegs_eq]
@[simp] theorem loadRegs_i (ks : List Reg) (s : State) : (s.loadRegs ks).i = s.i := by
  rw [loadRegs_eq]
@[simp] theorem loadRegs_pc (ks : List Reg) (s : State) : (s.loadRegs ks).pc = s.pc := by
  rw [loadRegs_eq]
@[simp] theorem loadRegs_stack (ks : List Reg) (s : State) : (s.loadRegs ks).stack = s.stack := by
  rw [loadRegs_eq]
@[simp] theorem loadRegs_dt (ks : List Reg) (s : State) : (s.loadRegs ks).dt = s.dt := by
  rw [loadRegs_eq]
@[simp] theorem loadRegs_st (ks : List Reg) (s : State) : (s.loadRegs ks).st = s.st := by
  rw [loadRegs_eq]
@[simp] theorem loadRegs_execState (ks : List Reg) (s : State) : (s.loadRegs ks).execState = s.execState := by
  rw [loadRegs_eq]
@[simp] theorem loadRegs_mem (ks : List Reg) (s : State) : (s.loadRegs ks).mem = s.mem := by
  rw [loadRegs_eq]
@[simp] theorem loadRegs_fb (ks : List Reg) (s : State) : (s.loadRegs ks).fb = s.fb := by
  rw [loadRegs_eq]
@[simp] theorem loadRegs_audio (ks : List Reg) (s : State) : (s.loadRegs ks).audio = s.audio := by
  rw [loadRegs_eq]
@[simp] theorem loadRegs_phase (ks : List Reg) (s : State) : (s.loadRegs ks).phase = s.phase := by
  rw [loadRegs_eq]
@[simp] theorem loadRegs_events (ks : List Reg) (s : State) : (s.loadRegs ks).events = s.events := by
  rw [loadRegs_eq]
@[simp] theorem loadRegs_randFeed (ks : List Reg) (s : State) : (s.loadRegs ks).randFeed = s.randFeed := by
  rw [loadRegs_eq]
@[simp] theorem loadRegs_randCount (ks : List Reg) (s : State) : (s.loadRegs ks).randCount = s.randCount := by
  rw [loadRegs_eq]
@[simp] theorem loadRegs_keyFeed (ks : List Reg) (s : State) : (s.loadRegs ks).keyFeed = s.keyFeed := by
  rw [loadRegs_eq]
@[simp] theorem loadRegs_keyCount (ks : List Reg) (s : State) : (s.loadRegs ks).keyCount = s.keyCount := by
  rw [loadRegs_eq]
@[simp] theorem loadRegs_calls (ks : List Reg) (s : State) : (s.loadRegs ks).calls = s.calls := by
  rw [loadRegs_eq]

@[simp] theorem loadRegs_readByte (ks : List Reg) (s : State) (a : Nat) :
    (s.loadRegs ks).readByte a = s.readByte a := by
  rw [loadRegs_eq]; rfl

/-- A block load gives each register of the list the byte at its effective address (R175). -/
theorem loadRegs_reg (ks : List Reg) (s : State) (k : Reg) :
    (s.loadRegs ks).reg k = if k ∈ ks then s.readByte (s.ea k.val) else s.reg k := by
  induction ks generalizing s with
  | nil => simp [State.loadRegs]
  | cons j ks ih =>
    have hread : ∀ b a, (s.setReg j b).readByte a = s.readByte a := fun _ _ => rfl
    have hea : ∀ b n, (s.setReg j b).ea n = s.ea n := fun _ _ => rfl
    simp only [State.loadRegs, ih, hread, hea, reg_setReg, List.mem_cons]
    by_cases hk : k ∈ ks
    · simp [hk]
    · by_cases hj : j = k
      · simp [hj]
      · simp [hk, hj, Ne.symm hj]

/-! ### Drawing -/

@[simp] theorem plot_cfg (ps : List (Nat × Nat)) (s : State) : (s.plot ps).1.cfg = s.cfg := by
  obtain ⟨fb, calls, h⟩ := plot_frame ps s; rw [h]
@[simp] theorem plot_v (ps : List (Nat × Nat)) (s : State) : (s.plot ps).1.v = s.v := by
  obtain ⟨fb, calls, h⟩ := plot_frame ps s; rw [h]
@[simp] theorem plot_i (ps : List (Nat × Nat)) (s : State) : (s.plot ps).1.i = s.i := by
  obtain ⟨fb, calls, h⟩ := plot_frame ps s; rw [h]
@[simp] theorem plot_pc (ps : List (Nat × Nat)) (s : State) : (s.plot ps).1.pc = s.pc := by
  obtain ⟨fb, calls, h⟩ := plot_frame ps s; rw [h]
@[simp] theorem plot_stack (ps : List (Nat × Nat)) (s : State) : (s.plot ps).1.stack = s.stack := by
  obtain ⟨fb, calls, h⟩ := plot_frame ps s; rw [h]
@[simp] theorem plot_dt (ps : List (Nat × Nat)) (s : State) : (s.plot ps).1.dt = s.dt := by
  obtain ⟨fb, calls, h⟩ := plot_frame ps s; rw [h]
@[simp] theorem plot_st (ps : List (Nat × Nat)) (s : State) : (s.plot ps).1.st = s.st := by
  obtain ⟨fb, calls, h⟩ := plot_frame ps s; rw [h]
@[simp] theorem plot_execState (ps : List (Nat × Nat)) (s : State) : (s.plot ps).1.execState = s.execState := by
  obtain ⟨fb, calls, h⟩ := plot_frame ps s; rw [h]
@[simp] theorem plot_mem (ps : List (Nat × Nat)) (s : State) : (s.plot ps).1.mem = s.mem := by
  obtain ⟨fb, calls, h⟩ := plot_frame ps s; rw [h]
@[simp] theorem plot_audio (ps : List (Nat × Nat)) (s : State) : (s.plot ps).1.audio = s.audio := by
  obtain ⟨fb, calls, h⟩ := plot_frame ps s; rw [h]
@[simp] theorem plot_phase (ps : List (Nat × Nat)) (s : State) : (s.plot ps).1.phase = s.phase := by
  obtain ⟨fb, calls, h⟩ := plot_frame ps s; rw [h]
@[simp] theorem plot_events (ps : List (Nat × Nat)) (s : State) : (s.plot ps).1.events = s.events := by
  obtain ⟨fb, calls, h⟩ := plot_frame ps s; rw [h]
@[simp] theorem plot_randFeed (ps : List (Nat × Nat)) (s : State) : (s.plot ps).1.randFeed = s.randFeed := by
  obtain ⟨fb, calls, h⟩ := plot_frame ps s; rw [h]
@[simp] theorem plot_randCount (ps : List (Nat × Nat)) (s : State) : (s.plot ps).1.randCount = s.randCount := by
  obtain ⟨fb, calls, h⟩ := plot_frame ps s; rw [h]
@[simp] theorem plot_keyFeed (ps : List (Nat × Nat)) (s : State) : (s.plot ps).1.keyFeed = s.keyFeed := by
  obtain ⟨fb, calls, h⟩ := plot_frame ps s; rw [h]
@[simp] theorem plot_keyCount (ps : List (Nat × Nat)) (s : State) : (s.plot ps).1.keyCount = s.keyCount := by
  obtain ⟨fb, calls, h⟩ := plot_frame ps s; rw [h]
@[simp] theorem plot_reg (ps : List (Nat × Nat)) (s : State) (k : Reg) : (s.plot ps).1.reg k = s.reg k := by
  obtain ⟨fb, calls, h⟩ := plot_frame ps s; rw [h]; rfl
@[simp] theorem plot_readByte (ps : List (Nat × Nat)) (s : State) (a : Nat) : (s.plot ps).1.readByte a = s.readByte a := by
  obtain ⟨fb, calls, h⟩ := plot_frame ps s; rw [h]; rfl

/-! ### Flags -/

theorem bitOf_toNat (b : Bool) : (bitOf b).toNat = if b then 1 else 0 := by cases b <;> rfl

/-- Flag first, result second (R142). -/
theorem setFlagThenResult_reg (s : State) (x k : Reg) (flag result : Byte) :
    (s.setFlagThenResult x flag result).reg k = if x = k then result else if vf = k then flag else s.reg k := by
  simp only [State.setFlagThenResult, reg_setReg]

/-! ### Fetch -/

/-- A fetch succeeds exactly when PC passes its checks, with the big-endian word there (R56, R101). -/
theorem fetch_eq_ok {s : State} {w : Word} :
    s.fetch = .ok w ↔ s.oddPcFaults = false ∧ s.pc.toNat + 1 ≤ 0xFFF ∧
      w = wordOfBytes (s.readByte s.pc.toNat) (s.readByte (s.pc.toNat + 1)) := by
  unfold State.fetch State.memRead State.canRead
  by_cases h : s.oddPcFaults = true
  · simp [h]
  · by_cases h1 : s.pc.toNat + 1 ≤ 0xFFF
    · have h0 : s.pc.toNat ≤ 0xFFF := by omega
      simp [h, h1, h0, eq_comm]
    · by_cases h0 : s.pc.toNat ≤ 0xFFF <;> simp [h, h1, h0]

end Sys2Proof.Machine
end

