-- ==== Sys2Proof/Laws/Step.lean ====
section
/-! SUPPORT. What a step can do, said once: the inversion lemmas of step, runInstr and fetchDecode. -/

namespace Sys2Proof.Machine

theorem onNext_eq_next {f : State → State} {r : Result} {t : State} :
    onNext f r = .next t ↔ ∃ u, r = .next u ∧ t = f u := by
  cases r <;> simp [onNext, eq_comm]

/-- Fetch and decode succeed exactly when the fetch does and its word is an instruction (R101, R103). -/
theorem fetchDecode_eq_ok {s : State} {i : Instr} :
    s.fetchDecode = .ok i ↔ ∃ w, s.fetch = .ok w ∧ decode w = .ok i := by
  unfold State.fetchDecode
  cases hf : s.fetch with
  | error e => simp
  | ok w => cases hd : decode w <;> simp [hd]

/-- One instruction either raises what its fetch or decode raised, or is executed (R101 to R104). -/
theorem runInstr_cases {s t : State} (h : runInstr s = .next t) :
    (∃ e, s.fetchDecode = .error e ∧ t = s.setExec (.halted ⟨e.code, s.pc, e.word, e.addr⟩)) ∨
    (∃ i, s.fetchDecode = .ok i ∧ exec i s = .next t) := by
  unfold runInstr at h
  cases hd : s.fetchDecode with
  | error e =>
    rw [hd] at h
    simp only [State.raise, Host.Outcome.next.injEq] at h
    exact .inl ⟨e, rfl, h.symm⟩
  | ok i =>
    rw [hd] at h
    exact .inr ⟨i, rfl, h⟩

theorem step_burst {s : State} {done : Nat} (h : s.phase = .burst done) : step s = s.burstStep done := by
  simp [step, h]

theorem step_between {s : State} (h : s.phase = .between) : step s = s.eventStep := by
  simp [step, h]

/-- The four things a step can do (R100, R105). -/
theorem step_cases {s t : State} (h : step s = .next t) :
    (∃ done u, s.phase = .burst done ∧ s.burstGoesOn done = true ∧ runInstr s = .next u ∧ t = u.endInstr done) ∨
    (∃ done, s.phase = .burst done ∧ s.burstGoesOn done = false ∧ t = s.endTick.setPhase .between) ∨
    (s.phase = .between ∧ s.events = [] ∧ t = s) ∨
    (∃ e es, s.phase = .between ∧ s.events = e :: es ∧ t = (s.setEvents es).handle e) := by
  cases hp : s.phase with
  | burst done =>
    rw [step_burst hp] at h
    unfold State.burstStep at h
    split at h
    · rename_i hg
      obtain ⟨u, hu, rfl⟩ := onNext_eq_next.mp h
      exact .inl ⟨done, u, rfl, hg, hu, rfl⟩
    · rename_i hg
      simp only [Host.Outcome.next.injEq] at h
      exact .inr (.inl ⟨done, rfl, by simpa using hg, h.symm⟩)
  | between =>
    rw [step_between hp] at h
    unfold State.eventStep at h
    split at h
    · rename_i he
      simp only [Host.Outcome.next.injEq] at h
      exact .inr (.inr (.inl ⟨rfl, he, h.symm⟩))
    · rename_i e es he
      simp only [Host.Outcome.next.injEq] at h
      exact .inr (.inr (.inr ⟨e, es, rfl, he, h.symm⟩))

/-- The end of an instruction changes the scheduler's place and nothing else (R106, R107). -/
theorem endInstr_eq (done : Nat) (t : State) : ∃ p, t.endInstr done = t.setPhase p := by
  unfold State.endInstr
  split <;> exact ⟨_, rfl⟩

end Sys2Proof.Machine
end

