-- ==== Sys2Proof/Laws/Exec.lean ====
section
/-! SUPPORT. What each instruction that can fault can do, said once, and what every instruction leaves alone. The
other instructions answer a next state by computation. -/

namespace Sys2Proof.Machine

/-- RET pops, or underflows on an empty stack (R120). -/
theorem execRet_cases {s t : State} (h : execRet s = .next t) :
    (∃ w ws, s.stack = w :: ws ∧ t = (s.advance.setStack ws).setPc w) ∨
    (s.stack = [] ∧ t = s.setExec (.halted ⟨.stackUnderflow, s.pc, some (encode .ret), none⟩)) := by
  unfold execRet at h
  split at h
  · rename_i w u hp
    obtain ⟨ws, h1, rfl⟩ := pop_eq_some.mp hp
    exact .inl ⟨w, ws, h1, (Host.Outcome.next.inj h).symm⟩
  · rename_i hp
    exact .inr ⟨List.eq_nil_of_length_eq_zero (pop_eq_none (s := s.advance) |>.mp hp), (Host.Outcome.next.inj h).symm⟩

/-- CALL pushes the advanced PC and jumps, or overflows on a full stack (R122). -/
theorem execCallNnn_cases {s t : State} {nnn : Addr12} (h : execCallNnn nnn s = .next t) :
    (s.sp < s.cfg.stackDepth ∧ t = (s.advance.setStack ((s.pc + 2) :: s.stack)).setPc (zextAddr nnn)) ∨
    (s.cfg.stackDepth ≤ s.sp ∧
      t = s.setExec (.halted ⟨.stackOverflow, s.pc, some (encode (.callNnn nnn)), none⟩)) := by
  unfold execCallNnn at h
  split at h
  · rename_i u hp
    obtain ⟨h1, rfl⟩ := push_eq_some.mp hp
    exact .inl ⟨h1, (Host.Outcome.next.inj h).symm⟩
  · rename_i hp
    exact .inr ⟨(push_eq_none (s := s.advance)).mp hp, (Host.Outcome.next.inj h).symm⟩

/-- LD B stores three digits, or raises ADDRESS_ERROR at the first address it cannot write (R173). -/
theorem execLdBVx_cases {s t : State} {x : Reg} (h : execLdBVx x s = .next t) :
    (s.badWrite 3 = none ∧ t = s.advance.storeBytes (s.ea 0) (bcdDigits (s.reg x))) ∨
    (∃ a, s.badWrite 3 = some a ∧
      t = s.setExec (.halted ⟨.addressError, s.pc, some (encode (.ldBVx x)), some a⟩)) := by
  unfold execLdBVx at h
  split at h
  · rename_i a hb
    exact .inr ⟨a, hb, (Host.Outcome.next.inj h).symm⟩
  · rename_i hb
    exact .inl ⟨hb, (Host.Outcome.next.inj h).symm⟩

/-- LD [I] stores V0..Vx, or raises ADDRESS_ERROR at the first address it cannot write (R174). -/
theorem execLdMemIVx_cases {s t : State} {x : Reg} (h : execLdMemIVx x s = .next t) :
    (s.badWrite (x.val + 1) = none ∧ t = s.advance.storeBytes (s.ea 0) (s.regBytes x)) ∨
    (∃ a, s.badWrite (x.val + 1) = some a ∧
      t = s.setExec (.halted ⟨.addressError, s.pc, some (encode (.ldMemIVx x)), some a⟩)) := by
  unfold execLdMemIVx at h
  split at h
  · rename_i a hb
    exact .inr ⟨a, hb, (Host.Outcome.next.inj h).symm⟩
  · rename_i hb
    exact .inl ⟨hb, (Host.Outcome.next.inj h).symm⟩

/-- LD Vx,[I] loads V0..Vx, or raises ADDRESS_ERROR at the first address it cannot read (R175). -/
theorem execLdVxMemI_cases {s t : State} {x : Reg} (h : execLdVxMemI x s = .next t) :
    (s.badRead (x.val + 1) = none ∧ t = s.advance.loadRegs (regsUpTo x)) ∨
    (∃ a, s.badRead (x.val + 1) = some a ∧
      t = s.setExec (.halted ⟨.addressError, s.pc, some (encode (.ldVxMemI x)), some a⟩)) := by
  unfold execLdVxMemI at h
  split at h
  · rename_i a hb
    exact .inr ⟨a, hb, (Host.Outcome.next.inj h).symm⟩
  · rename_i hb
    exact .inl ⟨hb, (Host.Outcome.next.inj h).symm⟩

/-- What DRW plots: one call for each 1 bit of its rows (R195). -/
theorem execDrwVxVyN_cases {s t : State} {x y : Reg} {n : Nat} (h : execDrwVxVyN x y n s = .next t) :
    (s.badRead n = none ∧
      ∃ d, d = s.advance.plot (spritePoints (s.reg x).toNat (s.reg y).toNat (s.spriteRows n)) ∧
        t = d.1.setReg vf (collisionFlag d.2)) ∨
    (∃ a, s.badRead n = some a ∧
      t = s.setExec (.halted ⟨.addressError, s.pc, some (encode (.drwVxVyN x y n)), some a⟩)) := by
  unfold execDrwVxVyN at h
  split at h
  · rename_i a hb
    exact .inr ⟨a, hb, (Host.Outcome.next.inj h).symm⟩
  · rename_i hb
    exact .inl ⟨hb, _, rfl, (Host.Outcome.next.inj h).symm⟩

/-- No instruction touches the parameters, the scheduler's place or the events still to come. -/
theorem exec_keeps_scheduler {i : Instr} {s t : State} (h : exec i s = .next t) :
    t.cfg = s.cfg ∧ t.phase = s.phase ∧ t.events = s.events := by
  cases i with
  | ret => obtain ⟨w, ws, -, rfl⟩ | ⟨-, rfl⟩ := execRet_cases h <;> exact ⟨rfl, rfl, rfl⟩
  | callNnn nnn => obtain ⟨-, rfl⟩ | ⟨-, rfl⟩ := execCallNnn_cases h <;> exact ⟨rfl, rfl, rfl⟩
  | ldBVx x =>
    obtain ⟨-, rfl⟩ | ⟨a, -, rfl⟩ := execLdBVx_cases h
    · simp [advance_eq]
    · exact ⟨rfl, rfl, rfl⟩
  | ldMemIVx x =>
    obtain ⟨-, rfl⟩ | ⟨a, -, rfl⟩ := execLdMemIVx_cases h
    · simp [advance_eq]
    · exact ⟨rfl, rfl, rfl⟩
  | ldVxMemI x =>
    obtain ⟨-, rfl⟩ | ⟨a, -, rfl⟩ := execLdVxMemI_cases h
    · simp [advance_eq]
    · exact ⟨rfl, rfl, rfl⟩
  | drwVxVyN x y n =>
    obtain ⟨-, d, rfl, rfl⟩ | ⟨a, -, rfl⟩ := execDrwVxVyN_cases h
    · simp [advance_eq]
    · exact ⟨rfl, rfl, rfl⟩
  | _ =>
    obtain rfl := Host.Outcome.next.inj h
    simp [advance_eq, skipIf_eq, State.setFlagThenResult, State.displayClear]

/-! ### The end of a tick and the reset -/

/-- The end of a tick writes the timers, AUDIO and the calls, and nothing else (R218, R219, R193). -/
theorem endTick_eq (s : State) :
    ∃ dt st a c, s.endTick = { s with dt := dt, st := st, audio := a, calls := c } := by
  unfold State.endTick
  split
  · unfold State.audioSignal; split <;> exact ⟨_, _, _, _, rfl⟩
  · unfold State.audioSignal; split <;> exact ⟨_, _, _, _, rfl⟩
  · exact ⟨_, _, _, _, rfl⟩
  · exact ⟨_, _, _, _, rfl⟩

/-- A counted-down timer is one less, and stays at 0 (R218). -/
theorem countDown_toNat (b : Byte) : (countDown b).toNat = b.toNat - 1 := by
  unfold countDown
  split
  · rename_i h; simp [h]
  · rename_i h; bv_omega

theorem loadAccepted_iff {bytes : List Byte} :
    loadAccepted bytes = true ↔ 1 ≤ bytes.length ∧ bytes.length ≤ 3584 := by
  unfold loadAccepted
  exact decide_eq_true_iff

/-- The state a reset gives, but for its memory (R262). -/
theorem resetWith_eq (s : State) (bytes : List Byte) :
    s.resetWith bytes = { s with
      v := Vector.replicate 16 0, i := 0, pc := 0x200, stack := [], dt := 0, st := 0, execState := .running
      mem := (s.resetWith bytes).mem, fb := [], audio := .stopped, phase := .between
      calls := .audioStop :: .displayClear :: s.calls } := by
  simp only [State.resetWith, State.loadProgram]
  rw [storeBytes_eq]
  rfl

/-- A byte after a reset: the program's from 0x200, and the reset content elsewhere (R52, R66, R262). -/
theorem readByte_resetWith (s : State) (bytes : List Byte) (a : Nat) :
    (s.resetWith bytes).readByte a =
      if h : 0x200 ≤ a ∧ a < 0x200 + bytes.length then bytes[a - 0x200]'(by omega) else resetByte s.cfg a := by
  simp only [State.resetWith, State.loadProgram, progBase, readByte_storeBytes]
  rfl

theorem resetWith_mem_wf (s : State) {bytes : List Byte} (h : bytes.length ≤ 3584) :
    Memory.wf s.cfg (s.resetWith bytes).mem := by
  have hb : progBase + bytes.length ≤ memSize := by simp only [progBase, memSize]; omega
  have hw := storeBytes_wf bytes (s := { s with
    v := Vector.replicate 16 0, i := 0, pc := BitVec.ofNat 16 progBase, stack := [], dt := 0, st := 0
    execState := .running, mem := [], fb := [], audio := .stopped, phase := .between
    calls := .audioStop :: .displayClear :: s.calls }) ⟨by simp, by simp⟩ hb
  rw [storeBytes_cfg] at hw
  exact hw

end Sys2Proof.Machine
end

