-- ==== Sys2Proof/Laws/Commute.lean ====
section
/-! SUPPORT. Updates no instruction reads: the scheduler's place and AUDIO pass through every instruction, and the
framebuffer through the block operations (R33, R105, R190). -/

namespace Sys2Proof.Machine

/-! ### The scheduler's place -/

theorem skipIf_setPhase (s : State) (p : Phase) (c : Bool) : (s.setPhase p).skipIf c = (s.skipIf c).setPhase p := by
  cases c <;> rfl

theorem storeBytes_setPhase (bs : List Byte) (s : State) (p : Phase) (base : Nat) :
    (s.setPhase p).storeBytes base bs = (s.storeBytes base bs).setPhase p := by
  induction bs generalizing s base with
  | nil => rfl
  | cons b bs ih => exact ih (s.writeByte base b) (base + 1)

theorem loadRegs_setPhase (ks : List Reg) (s : State) (p : Phase) :
    (s.setPhase p).loadRegs ks = (s.loadRegs ks).setPhase p := by
  induction ks generalizing s with
  | nil => rfl
  | cons k ks ih => exact ih (s.setReg k (s.readByte (s.ea k.val)))

theorem plot_setPhase (ps : List (Nat × Nat)) (s : State) (p : Phase) :
    (s.setPhase p).plot ps = ((s.plot ps).1.setPhase p, (s.plot ps).2) := by
  induction ps generalizing s with
  | nil => rfl
  | cons q ps ih =>
    obtain ⟨x, y⟩ := q
    have e : (s.setPhase p).setPixel x y = ((s.setPixel x y).1.setPhase p, (s.setPixel x y).2) := rfl
    simp only [State.plot, e, ih]

/-- An instruction at a state that differs in this alone does the same. -/
theorem exec_setPhase (i : Instr) (s : State) (p : Phase) :
    exec i (s.setPhase p) = onNext (fun t => t.setPhase p) (exec i s) := by
  cases i with
  | ret =>
    show execRet _ = onNext _ (execRet s)
    have e : (s.setPhase p).advance.stack = s.stack := rfl
    have e' : s.advance.stack = s.stack := rfl
    unfold execRet State.pop
    rw [e, e']
    cases s.stack <;> rfl
  | callNnn nnn =>
    show execCallNnn _ _ = onNext _ (execCallNnn _ s)
    unfold execCallNnn State.push
    by_cases h : s.sp < s.cfg.stackDepth
    · rw [if_pos (show (s.setPhase p).advance.sp < (s.setPhase p).advance.cfg.stackDepth from h),
        if_pos (show s.advance.sp < s.advance.cfg.stackDepth from h)]
      rfl
    · rw [if_neg (show ¬ (s.setPhase p).advance.sp < (s.setPhase p).advance.cfg.stackDepth from h),
        if_neg (show ¬ s.advance.sp < s.advance.cfg.stackDepth from h)]
      rfl
  | ldBVx x =>
    show execLdBVx _ _ = onNext _ (execLdBVx _ s)
    unfold execLdBVx
    rw [show (s.setPhase p).badWrite 3 = s.badWrite 3 from rfl]
    cases s.badWrite 3 with
    | none => exact congrArg Host.Outcome.next (storeBytes_setPhase _ s.advance p _)
    | some a => rfl
  | ldMemIVx x =>
    show execLdMemIVx _ _ = onNext _ (execLdMemIVx _ s)
    unfold execLdMemIVx
    rw [show (s.setPhase p).badWrite (x.val + 1) = s.badWrite (x.val + 1) from rfl]
    cases s.badWrite (x.val + 1) with
    | none => exact congrArg Host.Outcome.next (storeBytes_setPhase _ s.advance p _)
    | some a => rfl
  | ldVxMemI x =>
    show execLdVxMemI _ _ = onNext _ (execLdVxMemI _ s)
    unfold execLdVxMemI
    rw [show (s.setPhase p).badRead (x.val + 1) = s.badRead (x.val + 1) from rfl]
    cases s.badRead (x.val + 1) with
    | none => exact congrArg Host.Outcome.next (loadRegs_setPhase _ s.advance p)
    | some a => rfl
  | drwVxVyN x y n =>
    show execDrwVxVyN _ _ _ _ = onNext _ (execDrwVxVyN _ _ _ s)
    have e := plot_setPhase (spritePoints (s.reg x).toNat (s.reg y).toNat (s.spriteRows n)) s.advance p
    unfold execDrwVxVyN
    rw [show (s.setPhase p).badRead n = s.badRead n from rfl]
    cases s.badRead n with
    | none => exact congrArg (fun d : State × Bool => Host.Outcome.next (d.1.setReg vf (collisionFlag d.2))) e
    | some a => rfl
  | _ =>
    first
    | rfl
    | exact congrArg Host.Outcome.next (skipIf_setPhase s.advance p _)
    | exact congrArg Host.Outcome.next (skipIf_setPhase s.advance.queried p _)

theorem runInstr_setPhase (s : State) (p : Phase) :
    runInstr (s.setPhase p) = onNext (fun t => t.setPhase p) (runInstr s) := by
  unfold runInstr
  rw [show (s.setPhase p).fetchDecode = s.fetchDecode from rfl]
  cases s.fetchDecode with
  | error e => rfl
  | ok i => exact exec_setPhase i s p

/-! ### AUDIO -/

theorem skipIf_setAudio (s : State) (p : Audio) (c : Bool) : (s.setAudio p).skipIf c = (s.skipIf c).setAudio p := by
  cases c <;> rfl

theorem storeBytes_setAudio (bs : List Byte) (s : State) (p : Audio) (base : Nat) :
    (s.setAudio p).storeBytes base bs = (s.storeBytes base bs).setAudio p := by
  induction bs generalizing s base with
  | nil => rfl
  | cons b bs ih => exact ih (s.writeByte base b) (base + 1)

theorem loadRegs_setAudio (ks : List Reg) (s : State) (p : Audio) :
    (s.setAudio p).loadRegs ks = (s.loadRegs ks).setAudio p := by
  induction ks generalizing s with
  | nil => rfl
  | cons k ks ih => exact ih (s.setReg k (s.readByte (s.ea k.val)))

theorem plot_setAudio (ps : List (Nat × Nat)) (s : State) (p : Audio) :
    (s.setAudio p).plot ps = ((s.plot ps).1.setAudio p, (s.plot ps).2) := by
  induction ps generalizing s with
  | nil => rfl
  | cons q ps ih =>
    obtain ⟨x, y⟩ := q
    have e : (s.setAudio p).setPixel x y = ((s.setPixel x y).1.setAudio p, (s.setPixel x y).2) := rfl
    simp only [State.plot, e, ih]

/-- An instruction at a state that differs in this alone does the same. -/
theorem exec_setAudio (i : Instr) (s : State) (p : Audio) :
    exec i (s.setAudio p) = onNext (fun t => t.setAudio p) (exec i s) := by
  cases i with
  | ret =>
    show execRet _ = onNext _ (execRet s)
    have e : (s.setAudio p).advance.stack = s.stack := rfl
    have e' : s.advance.stack = s.stack := rfl
    unfold execRet State.pop
    rw [e, e']
    cases s.stack <;> rfl
  | callNnn nnn =>
    show execCallNnn _ _ = onNext _ (execCallNnn _ s)
    unfold execCallNnn State.push
    by_cases h : s.sp < s.cfg.stackDepth
    · rw [if_pos (show (s.setAudio p).advance.sp < (s.setAudio p).advance.cfg.stackDepth from h),
        if_pos (show s.advance.sp < s.advance.cfg.stackDepth from h)]
      rfl
    · rw [if_neg (show ¬ (s.setAudio p).advance.sp < (s.setAudio p).advance.cfg.stackDepth from h),
        if_neg (show ¬ s.advance.sp < s.advance.cfg.stackDepth from h)]
      rfl
  | ldBVx x =>
    show execLdBVx _ _ = onNext _ (execLdBVx _ s)
    unfold execLdBVx
    rw [show (s.setAudio p).badWrite 3 = s.badWrite 3 from rfl]
    cases s.badWrite 3 with
    | none => exact congrArg Host.Outcome.next (storeBytes_setAudio _ s.advance p _)
    | some a => rfl
  | ldMemIVx x =>
    show execLdMemIVx _ _ = onNext _ (execLdMemIVx _ s)
    unfold execLdMemIVx
    rw [show (s.setAudio p).badWrite (x.val + 1) = s.badWrite (x.val + 1) from rfl]
    cases s.badWrite (x.val + 1) with
    | none => exact congrArg Host.Outcome.next (storeBytes_setAudio _ s.advance p _)
    | some a => rfl
  | ldVxMemI x =>
    show execLdVxMemI _ _ = onNext _ (execLdVxMemI _ s)
    unfold execLdVxMemI
    rw [show (s.setAudio p).badRead (x.val + 1) = s.badRead (x.val + 1) from rfl]
    cases s.badRead (x.val + 1) with
    | none => exact congrArg Host.Outcome.next (loadRegs_setAudio _ s.advance p)
    | some a => rfl
  | drwVxVyN x y n =>
    show execDrwVxVyN _ _ _ _ = onNext _ (execDrwVxVyN _ _ _ s)
    have e := plot_setAudio (spritePoints (s.reg x).toNat (s.reg y).toNat (s.spriteRows n)) s.advance p
    unfold execDrwVxVyN
    rw [show (s.setAudio p).badRead n = s.badRead n from rfl]
    cases s.badRead n with
    | none => exact congrArg (fun d : State × Bool => Host.Outcome.next (d.1.setReg vf (collisionFlag d.2))) e
    | some a => rfl
  | _ =>
    first
    | rfl
    | exact congrArg Host.Outcome.next (skipIf_setAudio s.advance p _)
    | exact congrArg Host.Outcome.next (skipIf_setAudio s.advance.queried p _)

theorem runInstr_setAudio (s : State) (p : Audio) :
    runInstr (s.setAudio p) = onNext (fun t => t.setAudio p) (runInstr s) := by
  unfold runInstr
  rw [show (s.setAudio p).fetchDecode = s.fetchDecode from rfl]
  cases s.fetchDecode with
  | error e => rfl
  | ok i => exact exec_setAudio i s p

/-! ### The framebuffer -/

theorem skipIf_setFb (s : State) (p : List (Nat × Nat)) (c : Bool) : (s.setFb p).skipIf c = (s.skipIf c).setFb p := by
  cases c <;> rfl

theorem storeBytes_setFb (bs : List Byte) (s : State) (p : List (Nat × Nat)) (base : Nat) :
    (s.setFb p).storeBytes base bs = (s.storeBytes base bs).setFb p := by
  induction bs generalizing s base with
  | nil => rfl
  | cons b bs ih => exact ih (s.writeByte base b) (base + 1)

theorem loadRegs_setFb (ks : List Reg) (s : State) (p : List (Nat × Nat)) :
    (s.setFb p).loadRegs ks = (s.loadRegs ks).setFb p := by
  induction ks generalizing s with
  | nil => rfl
  | cons k ks ih => exact ih (s.setReg k (s.readByte (s.ea k.val)))

end Sys2Proof.Machine
end

