-- ==== Sys2Proof/Laws/PerInstr.lean ====
section
/-! SUPPORT. Statements about every instruction, one lemma per constructor (LAWS.json). The family TableRow: an
instruction's encoding matches the row of the opcode map that the instruction stands for (R84, R85). -/

namespace Sys2Proof.Laws.TableRow

/-- The encoded word of a well-formed instruction matches its row's mask and match (R84). -/
def Statement (i : Instr) : Prop :=
  i.wellFormed = true → ∃ r, opcodeMap[i.rowIndex]? = some r ∧ r.hits (encode i) = true

/-- A word built from its fields has them, for a row that fixes the major opcode alone. -/
theorem hits_major {m : String} {op rest : Nat} {w : Word} (hop : op < 16) (hr : rest < 4096)
    (hw : w.toNat = op * 4096 + rest) : (OpcodeRow.mk m 0xF000 (BitVec.ofNat 16 (op * 4096))).hits w = true := by
  have hb : bits w 15 12 = op := by simp only [bits, hw]; omega
  exact beq_iff_eq.mpr ((and_maskF000 w).trans (by rw [hb]))

/-- The same for a row that fixes the major opcode and the last nibble. -/
theorem hits_nibble {m : String} {op mid n : Nat} {w : Word} (hm : mid < 256) (hn : n < 16)
    (hw : w.toNat = op * 4096 + mid * 16 + n) :
    (OpcodeRow.mk m 0xF00F (BitVec.ofNat 16 (op * 4096 + n))).hits w = true := by
  have hb : bits w 15 12 = op := by simp only [bits, hw]; omega
  have hc : bits w 3 0 = n := by simp only [bits, hw]; omega
  exact beq_iff_eq.mpr ((and_maskF00F w).trans (by rw [hb, hc]))

/-- The same for a row that fixes the major opcode and the last byte. -/
theorem hits_byte {m : String} {op x sub : Nat} {w : Word} (hx : x < 16) (hs : sub < 256)
    (hw : w.toNat = op * 4096 + x * 256 + sub) :
    (OpcodeRow.mk m 0xF0FF (BitVec.ofNat 16 (op * 4096 + sub))).hits w = true := by
  have hb : bits w 15 12 = op := by simp only [bits, hw]; omega
  have hc : bits w 7 0 = sub := by simp only [bits, hw]; omega
  exact beq_iff_eq.mpr ((and_maskF0FF w).trans (by rw [hb, hc]))

theorem encodeA_toNat {op : Nat} (hop : op < 16) (nnn : Addr12) : (encodeA op nnn).toNat = op * 4096 + nnn.toNat := by
  have := nnn.isLt
  rw [encodeA, nibbles_toNat (by omega)]
  omega

theorem encodeXNN_toNat {op : Nat} (hop : op < 16) (x : Reg) (nn : Byte) :
    (encodeXNN op x nn).toNat = op * 4096 + (x.val * 256 + nn.toNat) := by
  have := x.isLt
  have := nn.isLt
  rw [encodeXNN, nibbles_toNat (by omega)]
  omega

theorem encodeXYN_toNat {op n : Nat} (hop : op < 16) (hn : n < 16) (x y : Reg) :
    (encodeXYN op x y n).toNat = op * 4096 + (x.val * 16 + y.val) * 16 + n := by
  have := x.isLt
  have := y.isLt
  rw [encodeXYN, nibbles_toNat (by omega)]
  omega

theorem encodeX_toNat {op sub : Nat} (hop : op < 16) (hs : sub < 256) (x : Reg) :
    (encodeX op x sub).toNat = op * 4096 + x.val * 256 + sub := by
  have := x.isLt
  rw [encodeX, nibbles_toNat (by omega)]
  omega

theorem row_A {m : String} {op : Nat} (hop : op < 16) (nnn : Addr12) :
    (OpcodeRow.mk m 0xF000 (BitVec.ofNat 16 (op * 4096))).hits (encodeA op nnn) = true :=
  hits_major hop nnn.isLt (encodeA_toNat hop nnn)

theorem row_XNN {m : String} {op : Nat} (hop : op < 16) (x : Reg) (nn : Byte) :
    (OpcodeRow.mk m 0xF000 (BitVec.ofNat 16 (op * 4096))).hits (encodeXNN op x nn) = true :=
  hits_major hop (by have := x.isLt; have := nn.isLt; omega) (encodeXNN_toNat hop x nn)

theorem row_XY {m : String} {op n : Nat} (hop : op < 16) (hn : n < 16) (x y : Reg) :
    (OpcodeRow.mk m 0xF00F (BitVec.ofNat 16 (op * 4096 + n))).hits (encodeXYN op x y n) = true :=
  hits_nibble (by have := x.isLt; have := y.isLt; omega) hn (encodeXYN_toNat hop hn x y)

theorem row_XYN {m : String} {op n : Nat} (hop : op < 16) (hn : n < 16) (x y : Reg) :
    (OpcodeRow.mk m 0xF000 (BitVec.ofNat 16 (op * 4096))).hits (encodeXYN op x y n) = true :=
  hits_major (rest := (x.val * 16 + y.val) * 16 + n) hop (by have := x.isLt; have := y.isLt; omega)
    (by rw [encodeXYN_toNat hop hn]; omega)

theorem row_X {m : String} {op sub : Nat} (hop : op < 16) (hs : sub < 256) (x : Reg) :
    (OpcodeRow.mk m 0xF0FF (BitVec.ofNat 16 (op * 4096 + sub))).hits (encodeX op x sub) = true :=
  hits_byte x.isLt hs (encodeX_toNat hop hs x)

theorem cls : Statement (.cls) := fun _ => ⟨_, rfl, by decide⟩
theorem ret : Statement (.ret) := fun _ => ⟨_, rfl, by decide⟩
theorem jpNnn (nnn : Addr12) : Statement (.jpNnn nnn) := fun _ => ⟨_, rfl, row_A (by decide) nnn⟩
theorem callNnn (nnn : Addr12) : Statement (.callNnn nnn) := fun _ => ⟨_, rfl, row_A (by decide) nnn⟩
theorem seVxNn (x : Reg) (nn : Byte) : Statement (.seVxNn x nn) := fun _ => ⟨_, rfl, row_XNN (by decide) x nn⟩
theorem sneVxNn (x : Reg) (nn : Byte) : Statement (.sneVxNn x nn) := fun _ => ⟨_, rfl, row_XNN (by decide) x nn⟩
theorem seVxVy (x y : Reg) : Statement (.seVxVy x y) := fun _ => ⟨_, rfl, row_XY (by decide) (by decide) x y⟩
theorem sneVxVy (x y : Reg) : Statement (.sneVxVy x y) := fun _ => ⟨_, rfl, row_XY (by decide) (by decide) x y⟩
theorem ldVxNn (x : Reg) (nn : Byte) : Statement (.ldVxNn x nn) := fun _ => ⟨_, rfl, row_XNN (by decide) x nn⟩
theorem addVxNn (x : Reg) (nn : Byte) : Statement (.addVxNn x nn) := fun _ => ⟨_, rfl, row_XNN (by decide) x nn⟩
theorem ldVxVy (x y : Reg) : Statement (.ldVxVy x y) := fun _ => ⟨_, rfl, row_XY (by decide) (by decide) x y⟩
theorem orVxVy (x y : Reg) : Statement (.orVxVy x y) := fun _ => ⟨_, rfl, row_XY (by decide) (by decide) x y⟩
theorem andVxVy (x y : Reg) : Statement (.andVxVy x y) := fun _ => ⟨_, rfl, row_XY (by decide) (by decide) x y⟩
theorem xorVxVy (x y : Reg) : Statement (.xorVxVy x y) := fun _ => ⟨_, rfl, row_XY (by decide) (by decide) x y⟩
theorem addVxVy (x y : Reg) : Statement (.addVxVy x y) := fun _ => ⟨_, rfl, row_XY (by decide) (by decide) x y⟩
theorem subVxVy (x y : Reg) : Statement (.subVxVy x y) := fun _ => ⟨_, rfl, row_XY (by decide) (by decide) x y⟩
theorem shrVx (x y : Reg) : Statement (.shrVx x y) := fun _ => ⟨_, rfl, row_XY (by decide) (by decide) x y⟩
theorem subnVxVy (x y : Reg) : Statement (.subnVxVy x y) := fun _ => ⟨_, rfl, row_XY (by decide) (by decide) x y⟩
theorem shlVx (x y : Reg) : Statement (.shlVx x y) := fun _ => ⟨_, rfl, row_XY (by decide) (by decide) x y⟩
theorem ldINnn (nnn : Addr12) : Statement (.ldINnn nnn) := fun _ => ⟨_, rfl, row_A (by decide) nnn⟩
theorem jpV0Nnn (nnn : Addr12) : Statement (.jpV0Nnn nnn) := fun _ => ⟨_, rfl, row_A (by decide) nnn⟩
theorem rndVxNn (x : Reg) (nn : Byte) : Statement (.rndVxNn x nn) := fun _ => ⟨_, rfl, row_XNN (by decide) x nn⟩
theorem drwVxVyN (x y : Reg) (n : Nat) : Statement (.drwVxVyN x y n) :=
  fun h => ⟨_, rfl, row_XYN (by decide) (by simpa [Instr.wellFormed] using h) x y⟩
theorem skpVx (x : Reg) : Statement (.skpVx x) := fun _ => ⟨_, rfl, row_X (by decide) (by decide) x⟩
theorem sknpVx (x : Reg) : Statement (.sknpVx x) := fun _ => ⟨_, rfl, row_X (by decide) (by decide) x⟩
theorem ldVxDt (x : Reg) : Statement (.ldVxDt x) := fun _ => ⟨_, rfl, row_X (by decide) (by decide) x⟩
theorem ldVxK (x : Reg) : Statement (.ldVxK x) := fun _ => ⟨_, rfl, row_X (by decide) (by decide) x⟩
theorem ldDtVx (x : Reg) : Statement (.ldDtVx x) := fun _ => ⟨_, rfl, row_X (by decide) (by decide) x⟩
theorem ldStVx (x : Reg) : Statement (.ldStVx x) := fun _ => ⟨_, rfl, row_X (by decide) (by decide) x⟩
theorem addIVx (x : Reg) : Statement (.addIVx x) := fun _ => ⟨_, rfl, row_X (by decide) (by decide) x⟩
theorem ldFVx (x : Reg) : Statement (.ldFVx x) := fun _ => ⟨_, rfl, row_X (by decide) (by decide) x⟩
theorem ldBVx (x : Reg) : Statement (.ldBVx x) := fun _ => ⟨_, rfl, row_X (by decide) (by decide) x⟩
theorem ldMemIVx (x : Reg) : Statement (.ldMemIVx x) := fun _ => ⟨_, rfl, row_X (by decide) (by decide) x⟩
theorem ldVxMemI (x : Reg) : Statement (.ldVxMemI x) := fun _ => ⟨_, rfl, row_X (by decide) (by decide) x⟩

end Sys2Proof.Laws.TableRow
end

