-- ==== Sys2Proof/Tests/Slice0.lean ====
section
/-! SUPPORT. Tests of the model's own: ill-formed terms, words written out from R85, one-step vectors of
95_test_vectors.md (their ids stand in the names), and a witness for the hypotheses of each statement. -/

namespace Sys2Proof.Tests

open Sys2Proof.Machine

/-! ### Helpers -/

/-- A state with the given registers written. -/
def withRegs (s : State) : List (Reg × Byte) → State
  | [] => s
  | (x, b) :: rest => withRegs (s.setReg x b) rest

/-- The reset state with the given registers. -/
def vs (rs : List (Reg × Byte)) : State := withRegs State.reset rs

/-- The reset state with I and the given registers. -/
def ivs (i : Word) (rs : List (Reg × Byte)) : State := withRegs (State.reset.setI i) rs

/-- The state after one step that runs a word. -/
def after (s : State) (w : Nat) : Option State :=
  match step (s.withFetchWord 16 w) with
  | .next t => some t
  | .fault _ => none
  | .refused _ => none

/-- What a step that runs a word shows of the state after it. -/
def sees {α : Type} [DecidableEq α] (s : State) (w : Nat) (f : State → α) (a : α) : Bool :=
  decide ((after s w).map f = some a)

/-- Two registers. -/
def regs2 (x y : Reg) (t : State) : Nat × Nat := ((t.reg x).toNat, (t.reg y).toNat)

/-- Three bytes of memory. -/
def bytes3 (a : Nat) (t : State) : List Byte := [t.readByte a, t.readByte (a + 1), t.readByte (a + 2)]

/-- The fault record, where there is one. -/
def record (t : State) : Option FaultRecord :=
  match t.execState with
  | .halted f => some f
  | .running => none
  | .awaitingKey _ => none
  | .idle => none

/-! ### Well-formed terms (R82) -/

theorem test_wf_refuses_draw_of_sixteen_rows : (Instr.drwVxVyN 0 0 16).wellFormed = false := by decide
theorem test_wf_takes_draw_of_fifteen_rows : (Instr.drwVxVyN 0 0 15).wellFormed = true := by decide

/-! ### Words written out from R85: nibble by nibble, op x y n -/

theorem test_decode_cls : decode 0b0000000011100000 = .ok .cls := by decide
theorem test_decode_ret : decode 0b0000000011101110 = .ok .ret := by decide
theorem test_decode_jp : decode 0b0001001000110100 = .ok (.jpNnn 0x234) := by decide
theorem test_decode_call : decode 0b0010001000010000 = .ok (.callNnn 0x210) := by decide
theorem test_decode_se_nn : decode 0b0011001000010000 = .ok (.seVxNn 2 0x10) := by decide
theorem test_decode_sne_nn : decode 0b0100001000010001 = .ok (.sneVxNn 2 0x11) := by decide
theorem test_decode_se_reg : decode 0b0101000100100000 = .ok (.seVxVy 1 2) := by decide
theorem test_decode_sne_reg : decode 0b1001000100100000 = .ok (.sneVxVy 1 2) := by decide
theorem test_decode_ld_nn : decode 0b0110101010011100 = .ok (.ldVxNn 10 0x9C) := by decide
theorem test_decode_add_nn : decode 0b0111000000000010 = .ok (.addVxNn 0 2) := by decide
theorem test_decode_ld_reg : decode 0b1000001111110000 = .ok (.ldVxVy 3 15) := by decide
theorem test_decode_or : decode 0b1000000100100001 = .ok (.orVxVy 1 2) := by decide
theorem test_decode_and : decode 0b1000000100100010 = .ok (.andVxVy 1 2) := by decide
theorem test_decode_xor : decode 0b1000000100100011 = .ok (.xorVxVy 1 2) := by decide
theorem test_decode_add_reg : decode 0b1000111100010100 = .ok (.addVxVy 15 1) := by decide
theorem test_decode_sub : decode 0b1000000100100101 = .ok (.subVxVy 1 2) := by decide
theorem test_decode_shr : decode 0b1000010001110110 = .ok (.shrVx 4 7) := by decide
theorem test_decode_subn : decode 0b1000000100100111 = .ok (.subnVxVy 1 2) := by decide
theorem test_decode_shl : decode 0b1000010001111110 = .ok (.shlVx 4 7) := by decide
theorem test_decode_ld_i : decode 0b1010001100000000 = .ok (.ldINnn 0x300) := by decide
theorem test_decode_jp_v0 : decode 0b1011001100000000 = .ok (.jpV0Nnn 0x300) := by decide
theorem test_decode_rnd : decode 0b1100001100001111 = .ok (.rndVxNn 3 0x0F) := by decide
theorem test_decode_drw : decode 0b1101000100100101 = .ok (.drwVxVyN 1 2 5) := by decide
theorem test_decode_skp : decode 0b1110010110011110 = .ok (.skpVx 5) := by decide
theorem test_decode_sknp : decode 0b1110010110100001 = .ok (.sknpVx 5) := by decide
theorem test_decode_ld_from_dt : decode 0b1111011000000111 = .ok (.ldVxDt 6) := by decide
theorem test_decode_ld_k : decode 0b1111010100001010 = .ok (.ldVxK 5) := by decide
theorem test_decode_ld_dt : decode 0b1111001100010101 = .ok (.ldDtVx 3) := by decide
theorem test_decode_ld_st : decode 0b1111001100011000 = .ok (.ldStVx 3) := by decide
theorem test_decode_add_i : decode 0b1111001000011110 = .ok (.addIVx 2) := by decide
theorem test_decode_ld_f : decode 0b1111000000101001 = .ok (.ldFVx 0) := by decide
theorem test_decode_ld_b : decode 0b1111000000110011 = .ok (.ldBVx 0) := by decide
theorem test_decode_ld_mem_i : decode 0b1111001001010101 = .ok (.ldMemIVx 2) := by decide
theorem test_decode_ld_from_mem_i : decode 0b1111001001100101 = .ok (.ldVxMemI 2) := by decide

/-- The bytes of a word lie high byte first (R56), and the table's words are read that way. -/
theorem test_decode_bytes_big_endian : decodeBytes [0x12, 0x34, 0x56] = .ok (.jpNnn 0x234, [0x56]) := by decide
theorem test_decode_table_word : decodeTableWord 16 0xF265 = some (.ldVxMemI 2) := by decide
theorem test_decode_truncated : decodeBytes [0x12] = .error .truncated := by decide
theorem test_decode_zero_word_unknown : decode 0x0000 = .error (.unknownOpcode 0) := by decide
theorem test_decode_e_unknown : decode 0xE19F = .error (.unknownOpcode 0xE19F) := by decide
theorem test_decode_9_unknown : decode 0x912F = .error (.unknownOpcode 0x912F) := by decide

/-! ### Control transfer (95_test_vectors.md 2.3) -/

theorem test_CT1_call : sees (State.reset.setPc 0x204) 0x2210 (fun t => (t.stack, t.pc)) ([0x206], 0x210) = true := by
  decide
theorem test_CT5_call_at_top : sees (State.reset.setPc 0xFFE) 0x2300 (·.stack) [0x1000] = true := by decide
theorem test_CT2_ret : sees ((State.reset.setPc 0x212).setStack [0x206]) 0x00EE (fun t => (t.pc, t.sp)) (0x206, 0) = true := by
  decide
theorem test_CT3_ret_underflow :
    sees State.reset 0x00EE record (some ⟨.stackUnderflow, 0x200, some 0x00EE, none⟩) = true := by decide
theorem test_CT4_call_overflow : sees (State.reset.setStack (List.replicate 16 0x206)) 0x2300
    (fun t => (record t, t.sp)) (some ⟨.stackOverflow, 0x200, some 0x2300, none⟩, 16) = true := by decide
theorem test_CT6_jp : sees State.reset 0x1234 (·.pc) 0x234 = true := by decide
theorem test_CT8_jp_v0 : sees (vs [(0, 4)]) 0xB300 (·.pc) 0x304 = true := by decide
theorem test_CT9_jp_v0_beyond_memory : sees (vs [(0, 0xFF)]) 0xBFFF (·.pc) 0x10FE = true := by decide
theorem test_CT11_se_taken : sees (vs [(2, 0x10)]) 0x3210 (·.pc) 0x204 = true := by decide
theorem test_CT11_se_not_taken : sees (vs [(2, 0x10)]) 0x3211 (·.pc) 0x202 = true := by decide
theorem test_CT12_sne_taken : sees (vs [(2, 0x10)]) 0x4211 (·.pc) 0x204 = true := by decide
theorem test_CT12_sne_not_taken : sees (vs [(2, 0x10)]) 0x4210 (·.pc) 0x202 = true := by decide
theorem test_CT13_se_reg : sees (vs [(1, 7), (2, 7)]) 0x5120 (·.pc) 0x204 = true := by decide
theorem test_CT13_sne_reg : sees (vs [(1, 7), (2, 7)]) 0x9120 (·.pc) 0x202 = true := by decide

/-! ### Register arithmetic (95_test_vectors.md 2.4) -/

theorem test_AL1_ld_nn : sees State.reset 0x6A9C (·.reg 10) 0x9C = true := by decide
theorem test_AL2_add_nn_no_flag : sees (vs [(0, 0xFF)]) 0x7002 (regs2 0 15) (1, 0) = true := by decide
theorem test_AL3_add_nn_vf : sees (vs [(15, 5)]) 0x7F10 (·.reg 15) 0x15 = true := by decide
theorem test_AL4_ld_reg : sees (vs [(15, 1)]) 0x83F0 (·.reg 3) 1 = true := by decide
theorem test_AL5_or_keeps_vf : sees (vs [(1, 0x0F), (2, 0xF0), (15, 7)]) 0x8121 (regs2 1 15) (0xFF, 7) = true := by decide
theorem test_AL6_and : sees (vs [(1, 0x3C), (2, 0x0F)]) 0x8122 (·.reg 1) 0x0C = true := by decide
theorem test_AL7_xor : sees (vs [(1, 0xFF), (2, 0x0F)]) 0x8123 (·.reg 1) 0xF0 = true := by decide
theorem test_AL12_add_into_vf : sees (vs [(15, 0xF0), (1, 0x20)]) 0x8F14 (·.reg 15) 0x10 = true := by decide
theorem test_AL14_add_vy_is_vf : sees (vs [(1, 5), (15, 3)]) 0x81F4 (regs2 1 15) (8, 0) = true := by decide
theorem test_AL16_sub_borrow : sees (vs [(1, 3), (2, 5)]) 0x8125 (regs2 1 15) (0xFE, 0) = true := by decide
theorem test_S3_sub_equal : sees (vs [(1, 4), (2, 4), (15, 9)]) 0x8125 (regs2 1 15) (0, 0) = true := by decide
theorem test_S4_shr_ignores_vy : sees (vs [(4, 5), (7, 0xAA)]) 0x8476 (regs2 4 15) (2, 1) = true := by decide
theorem test_AL23_shr_vf : sees (vs [(15, 3)]) 0x8F06 (·.reg 15) 1 = true := by decide
theorem test_AL24_subn : sees (vs [(1, 3), (2, 5)]) 0x8127 (regs2 1 15) (2, 1) = true := by decide
theorem test_AL27_subn_vy_is_vf : sees (vs [(1, 5), (15, 2)]) 0x81F7 (regs2 1 15) (0xFD, 0) = true := by decide
theorem test_S4_shl_ignores_vy : sees (vs [(4, 0x81), (7, 0xAA)]) 0x847E (regs2 4 15) (2, 1) = true := by decide
theorem test_AL30_shl_vf : sees (vs [(15, 0x81)]) 0x8F0E (·.reg 15) 2 = true := by decide
theorem test_AL31_rnd : sees { State.reset with randFeed := [0xB7] } 0xC30F (·.reg 3) 7 = true := by decide

/-! ### Index register and memory (95_test_vectors.md 2.5) -/

theorem test_MM1_ld_i : sees State.reset 0xA300 (·.i) 0x300 = true := by decide
theorem test_MM3_add_i_past_12_bits : sees (ivs 0xFFF [(1, 1)]) 0xF11E (·.i) 0x1000 = true := by decide
theorem test_MM4_add_i_wraps : sees (ivs 0xFFFF [(1, 1), (15, 6)]) 0xF11E (fun t => (t.i, t.reg 15)) (0, 6) = true := by decide
theorem test_MM5_ld_f : sees (vs [(0, 0x0A)]) 0xF029 (·.i) 0x32 = true := by decide
theorem test_MM6_ld_f_unmasked : sees (vs [(0, 0xFF)]) 0xF029 (·.i) 0x4FB = true := by decide
theorem test_MM7_ld_b : sees (ivs 0x300 [(0, 156)]) 0xF033 (bytes3 0x300) [1, 5, 6] = true := by decide
theorem test_MM9_ld_b_address_error : sees (ivs 0xFFE [(0, 123)]) 0xF033 (fun t => (record t, t.mem.length))
    (some ⟨.addressError, 0x200, some 0xF033, some 0x1000⟩, 2) = true := by decide
theorem test_MM11_ld_mem_i : sees (ivs 0x400 [(0, 1), (1, 2), (2, 3)]) 0xF255 (fun t => (bytes3 0x400 t, t.i))
    ([1, 2, 3], 0x400) = true := by decide
theorem test_MM14_ld_mem_i_reserved : sees (ivs 0x1FE [(0, 1)]) 0xF155 record
    (some ⟨.addressError, 0x200, some 0xF155, some 0x1FE⟩) = true := by decide
theorem test_MM17_ld_from_mem_i : sees State.reset 0xF465
    (fun t => [t.reg 0, t.reg 1, t.reg 2, t.reg 3, t.reg 4, t.reg 5]) [0xF0, 0x90, 0x90, 0x90, 0xF0, 0] = true := by decide
theorem test_MM18_ld_from_mem_i_address_error : sees (ivs 0xFFF [(0, 8)]) 0xF165 (fun t => (record t, t.reg 0))
    (some ⟨.addressError, 0x200, some 0xF165, some 0x1000⟩, 8) = true := by decide

/-! ### Display (95_test_vectors.md 2.6) -/

theorem test_DS1_cls : sees (State.reset.setFb [(3, 1)]) 0x00E0 (·.fb) [] = true := by decide
theorem test_DS4_draw_wraps : sees (vs [(1, 62), (2, 30), (15, 1)]) 0xD125 (fun t => (t.fb, t.reg 15))
    ([(1, 0), (62, 0), (1, 1), (62, 1), (0, 2), (1, 2), (62, 2), (63, 2), (0, 30), (1, 30), (62, 30), (63, 30), (1, 31),
      (62, 31)], 0) = true := by decide
theorem test_DS10_draw_collides : sees ((ivs 0x300 []).setFb [(2, 0)] |>.writeByte 0x300 0x20) 0xD011
    (fun t => (t.fb, t.reg 15)) ([], 1) = true := by decide

/-! ### Keys, timers, fetch and tick (95_test_vectors.md 2.1, 2.7) -/

theorem test_KT1_skp : sees { vs [(5, 7)] with keyFeed := [true] } 0xE59E (·.pc) 0x204 = true := by decide
theorem test_KT2_skp_up : sees { vs [(5, 7)] with keyFeed := [false] } 0xE59E (·.pc) 0x202 = true := by decide
theorem test_KT2_sknp : sees { vs [(5, 7)] with keyFeed := [false] } 0xE5A1 (·.pc) 0x204 = true := by decide
theorem test_KT4_ld_from_dt : sees (State.reset.setDt 3) 0xF607 (·.reg 6) 3 = true := by decide
theorem test_KT5_ld_dt : sees ((vs [(3, 9)]).setDt 3) 0xF315 (·.dt) 9 = true := by decide
theorem test_ld_st : sees (vs [(3, 3)]) 0xF318 (fun t => (t.st, t.dt)) (3, 0) = true := by decide
theorem test_KT6_ld_k : sees ((vs [(5, 1)]).setPc 0x206) 0xF50A (fun t => (t.execState, t.pc, t.reg 5))
    (.awaitingKey 5, 0x208, 1) = true := by decide
theorem test_EN4_odd_pc : runInstr (State.reset.setPc 0x201) =
    .next ((State.reset.setPc 0x201).setExec (.halted ⟨.pcAlignment, 0x201, none, none⟩)) := rfl
theorem test_EN10_unknown_word : runInstr State.reset =
    .next (State.reset.setExec (.halted ⟨.unknownOpcode, 0x200, some 0, none⟩)) := rfl

/-! ### The status port: the codes of the table of R231 -/

theorem test_fault_codes : [FaultCode.unknownOpcode, .addressError, .stackUnderflow, .stackOverflow, .pcAlignment,
    .loadError].map FaultCode.number = [1, 2, 3, 4, 5, 6] := by decide
theorem test_status_ret_underflow : sees State.reset 0x00EE (·.status) (.halted 3 0x200 (some 0x00EE) none) = true := by
  decide
theorem test_status_power_on : State.powerOn.status = .idle := by decide

/-! ### Witnesses: states and operands that meet the hypotheses of the statements -/

/-- Inside a burst, at a word. -/
def at_ (w : Nat) : State := State.reset.withFetchWord 16 w

/-- The reset state where odd fetches are allowed. -/
def oddFetch : State := { State.reset with cfg := { hardwareConfig with oddPcPolicy := .fetch } }

/-- A HALTED machine between events. -/
def haltedState : State := haltedAt State.reset .unknownOpcode (some 0) none

theorem witness_DecodeAgreesWithOpcodeMap :
    decode 0x00E0 = .ok .cls ∧ decode 0x00E1 = .error (.unknownOpcode 0x00E1) := by decide

theorem witness_DecodeOfEncodeIsIdentity : (Instr.drwVxVyN 15 0 15).wellFormed = true := by decide

theorem witness_EncodeOfDecodeIsIdentity : decode 0x8126 = .ok (.shrVx 1 2) := by decide

theorem witness_UnknownWordsAreThoseListedAndHalt :
    State.reset.fetch = .ok 0 ∧ decode 0 = .error (.unknownOpcode 0) := ⟨rfl, by decide⟩

theorem witness_StepRunsDecodedInstruction :
    ∃ (s : State) (done : Nat) (i : Instr), s.phase = .burst done ∧ done < s.cfg.speed ∧ s.execState = .running ∧
      (s.cfg.oddPcPolicy = .fetch ∨ s.pc.toNat % 2 = 0) ∧ s.pc.toNat + 1 ≤ 0xFFF ∧
      decode (BitVec.ofNat 16 ((s.readByte s.pc.toNat).toNat * 256 + (s.readByte (s.pc.toNat + 1)).toNat)) = .ok i :=
  ⟨at_ 0x6A9C, 0, .ldVxNn 10 0x9C, by decide⟩

/-- The last instruction of a burst, at the odd address 0xFFD, where the policy allows it. -/
theorem witness_StepRunsDecodedInstruction_odd :
    ∃ (s : State) (i : Instr), s.phase = .burst 9 ∧ 9 < s.cfg.speed ∧ s.execState = .running ∧
      (s.cfg.oddPcPolicy = .fetch ∨ s.pc.toNat % 2 = 0) ∧ s.pc.toNat = 0xFFD ∧ s.pc.toNat + 1 ≤ 0xFFF ∧
      decode (BitVec.ofNat 16 ((s.readByte s.pc.toNat).toNat * 256 + (s.readByte (s.pc.toNat + 1)).toNat)) = .ok i :=
  ⟨((oddFetch.setPc 0xFFD).withFetchWord 16 0x00E0).setPhase (.burst 9), .cls, by decide⟩

theorem witness_PlacedWordRunsNext : decode 0xF10A = .ok (.ldVxK 1) := by decide

theorem witness_Fetch_odd :
    (State.reset.setPc 0x201).cfg.oddPcPolicy = .fault ∧ (State.reset.setPc 0x201).pc.toNat % 2 = 1 := by decide
theorem witness_Fetch_first_byte_outside :
    (State.reset.setPc 0x1000).pc.toNat % 2 = 0 ∧ 0xFFF < (State.reset.setPc 0x1000).pc.toNat := by decide
theorem witness_Fetch_second_byte_outside :
    (oddFetch.setPc 0xFFF).cfg.oddPcPolicy = .fetch ∧ (oddFetch.setPc 0xFFF).pc.toNat = 0xFFF := by decide
theorem witness_Fetch_last_word :
    (State.reset.setPc 0xFFE).pc.toNat % 2 = 0 ∧ (State.reset.setPc 0xFFE).pc.toNat < 0xFFF := by decide

theorem witness_FaultingInstructionCommitsNothing :
    ∃ (s t : State) (f : FaultRecord), s.execState = .running ∧ runInstr s = .next t ∧ t.execState = .halted f :=
  ⟨State.reset, _, _, rfl, rfl, rfl⟩

theorem witness_OnlySixInstructionsFaultInExecution :
    canFault .cls = false ∧ State.reset.execState = .running := by decide

theorem witness_TickStepsRefineAtomicTick :
    ∃ (s : State) (es : List Event), s.phase = .between ∧ s.events = .tick :: es ∧ s.execState = .running :=
  ⟨State.reset.setEvents [.tick], [], rfl, rfl, rfl⟩

/-- The last instruction of a burst faults. -/
theorem witness_FaultInBurstEndsTick :
    ∃ (s u : State) (done : Nat), s.phase = .burst done ∧ done < s.cfg.speed ∧ done + 1 = s.cfg.speed ∧
      s.execState = .running ∧ runInstr s = .next u ∧ u.isHalted = true :=
  ⟨State.reset.setPhase (.burst 9), _, 9, rfl, by decide, rfl, rfl, rfl, rfl⟩

theorem witness_TickWhileStoppedHasNoEffect_idle :
    ∃ (s : State) (es : List Event), s.phase = .between ∧ s.events = .tick :: es ∧
      (s.execState = .idle ∨ s.isHalted = true) :=
  ⟨State.powerOn.setEvents [.tick], [], rfl, rfl, .inl rfl⟩
theorem witness_TickWhileStoppedHasNoEffect_halted :
    ∃ (s : State) (es : List Event), s.phase = .between ∧ s.events = .tick :: es ∧
      (s.execState = .idle ∨ s.isHalted = true) :=
  ⟨haltedState.setEvents [.tick], [], rfl, rfl, .inr rfl⟩

theorem witness_TickWhileAwaitingKeyOnlySignals :
    ∃ (s : State) (es : List Event) (x : Reg), s.phase = .between ∧ s.events = .tick :: es ∧
      s.execState = .awaitingKey x :=
  ⟨(State.reset.setExec (.awaitingKey 5)).setEvents [.tick], [], 5, rfl, rfl, rfl⟩

theorem witness_EndOfTick_running :
    ∃ (s : State) (done : Nat), s.phase = .burst done ∧ s.execState = .running ∧ s.cfg.speed ≤ done :=
  ⟨(State.reset.setDt 1).setPhase (.burst 10), 10, rfl, rfl, by decide⟩
theorem witness_EndOfTick_awaiting :
    ∃ (s : State) (done : Nat), s.phase = .burst done ∧ ∃ x, s.execState = .awaitingKey x :=
  ⟨(State.reset.setExec (.awaitingKey 0)).setPhase (.burst 1), 1, rfl, 0, rfl⟩

theorem witness_KeyEvent_awaiting :
    ∃ (s : State) (k : Fin 16) (es : List Event) (x : Reg), s.phase = .between ∧ s.events = .key k :: es ∧
      s.execState = .awaitingKey x :=
  ⟨(State.reset.setExec (.awaitingKey 15)).setEvents [.key 15], 15, [], 15, rfl, rfl, rfl⟩
theorem witness_KeyEvent_running :
    ∃ (s : State) (k : Fin 16) (es : List Event), s.phase = .between ∧ s.events = .key k :: es ∧
      ∀ x, s.execState ≠ .awaitingKey x :=
  ⟨State.reset.setEvents [.key 4], 4, [], rfl, rfl, by decide⟩

theorem witness_Timers_by_instruction :
    ∃ t, step ((vs [(3, 9)]).withFetchWord 16 0xF315) = .next t ∧
      t.dt ≠ ((vs [(3, 9)]).withFetchWord 16 0xF315).dt := ⟨_, rfl, by decide⟩
theorem witness_Timers_by_countdown :
    ∃ t, step ((State.reset.setSt 1).setPhase (.burst 10)) = .next t ∧
      t.st ≠ ((State.reset.setSt 1).setPhase (.burst 10)).st := ⟨_, rfl, by decide⟩
theorem witness_Timers_by_load :
    ∃ t, step ((State.reset.setDt 1).setEvents [.load [0]]) = .next t ∧
      t.dt ≠ ((State.reset.setDt 1).setEvents [.load [0]]).dt := ⟨_, rfl, by decide⟩

theorem witness_Ret_pops : ∃ (s : State) (w : Word) (ws : List Word), s.stack = w :: ws :=
  ⟨State.reset.setStack [0x1000], 0x1000, [], rfl⟩
theorem witness_Ret_underflows : State.reset.sp = 0 := rfl

/-- One entry free, and none. -/
theorem witness_Call_pushes : (State.reset.setStack (List.replicate 15 0)).sp < hardwareConfig.stackDepth := by decide
theorem witness_Call_overflows : (State.reset.setStack (List.replicate 16 0)).sp = hardwareConfig.stackDepth := by decide

/-- Sixteen nested calls fill the stack. -/
theorem witness_NestedCalls :
    State.reset.sp + ((List.replicate 15 (0x300 : Addr12)).length + 1) ≤ State.reset.cfg.stackDepth := by decide

/-- The highest and the lowest block of three bytes that can be written. -/
theorem witness_StoreDecimal_top : ∀ k, k < 3 → ¬ Unwritable (ivs 0xFFD []) ((ivs 0xFFD []).ea k) := by
  unfold Unwritable; decide
theorem witness_StoreDecimal_bottom : ∀ k, k < 3 → ¬ Unwritable (ivs 0x200 []) ((ivs 0x200 []).ea k) := by
  unfold Unwritable; decide
/-- The third byte lies outside memory. -/
theorem witness_StoreDecimal_fault_top : Unwritable (ivs 0xFFE []) ((ivs 0xFFE []).ea 2) ∧
    ∀ j, j < 2 → ¬ Unwritable (ivs 0xFFE []) ((ivs 0xFFE []).ea j) := by
  unfold Unwritable; decide
/-- The first byte is reserved. -/
theorem witness_StoreDecimal_fault_reserved : Unwritable (ivs 0x1FF []) ((ivs 0x1FF []).ea 0) ∧
    ∀ j, j < 0 → ¬ Unwritable (ivs 0x1FF []) ((ivs 0x1FF []).ea j) := by
  unfold Unwritable; decide

theorem witness_StoreRegisterBlock_top : ∀ k, k ≤ 15 → ¬ Unwritable (ivs 0xFF0 []) ((ivs 0xFF0 []).ea k) := by
  unfold Unwritable; decide
theorem witness_StoreRegisterBlock_fault : Unwritable (ivs 0xFF1 []) ((ivs 0xFF1 []).ea 15) ∧
    ∀ j, j < 15 → ¬ Unwritable (ivs 0xFF1 []) ((ivs 0xFF1 []).ea j) := by
  unfold Unwritable; decide

theorem witness_LoadRegisterBlock_top : (ivs 0xFF0 []).ea 15 ≤ 0xFFF := by decide
theorem witness_LoadRegisterBlock_fault :
    0xFFF < (ivs 0xFFF []).ea 1 ∧ ∀ j, j < 1 → (ivs 0xFFF []).ea j ≤ 0xFFF := by decide

theorem witness_FetchSeesTheWordJustStored :
    ¬ Unwritable (ivs 0xFFE []) ((ivs 0xFFE []).ea 0) ∧ ¬ Unwritable (ivs 0xFFE []) ((ivs 0xFFE []).ea 1) ∧
      ((ivs 0xFFE []).cfg.oddPcPolicy = .fetch ∨ (ivs 0xFFE []).ea 0 % 2 = 0) := by
  unfold Unwritable; decide

theorem witness_Draw_in_memory : (ivs 0xFF1 []).ea 0 + 15 ≤ 0x1000 := by decide
theorem witness_Draw_fault :
    0xFFF < (ivs 0xFFD []).ea 3 ∧ ∀ j, j < 3 → (ivs 0xFFD []).ea j ≤ 0xFFF := by decide
/-- Glyph 0's corner falls on a set pixel. -/
theorem witness_Draw_collides : ∃ px py, px < 64 ∧ py < 32 ∧ 1 ≤ spriteHits State.reset 0 1 5 px py ∧
    (State.reset.setFb [(0, 0)]).pixel px py = true := ⟨0, 0, by decide⟩
/-- A sprite of no rows hits no pixel. -/
theorem witness_Draw_no_collision : ∀ px py, px < 64 → py < 32 → 1 ≤ spriteHits State.reset 0 1 0 px py →
    State.reset.pixel px py = false ∧ spriteHits State.reset 0 1 0 px py < 2 := by
  intro px py _ _ h
  simp [spriteHits] at h

theorem reset_canonical : State.reset.Canonical :=
  ⟨reset_mem_wf, List.Pairwise.nil, fun _ h => nomatch h⟩

theorem witness_DrawTwice : State.reset.Canonical ∧ (0 : Reg) ≠ 15 ∧ (1 : Reg) ≠ 15 ∧ State.reset.ea 0 + 5 ≤ 0x1000 ∧
    State.reset.fb = [] := ⟨reset_canonical, by decide, by decide, by decide, rfl⟩

theorem witness_RejectedLoad_empty :
    ∃ (s : State) (bytes : List Byte) (es : List Event), s.phase = .between ∧ s.events = .load bytes :: es ∧
      bytes.length = 0 := ⟨State.reset.setEvents [.load []], [], [], rfl, rfl, rfl⟩
theorem witness_RejectedLoad_too_long :
    ∃ (s : State) (bytes : List Byte) (es : List Event), s.phase = .between ∧ s.events = .load bytes :: es ∧
      bytes.length = 3585 :=
  ⟨State.reset.setEvents [.load (List.replicate 3585 0)], _, [], rfl, rfl, List.length_replicate⟩
theorem witness_AcceptedLoad_one_byte :
    ∃ (s : State) (bytes : List Byte) (es : List Event), s.phase = .between ∧ s.events = .load bytes :: es ∧
      1 ≤ bytes.length ∧ bytes.length ≤ 3584 :=
  ⟨State.powerOn.setEvents [.load [0x12]], [0x12], [], rfl, rfl, by decide, by decide⟩
theorem witness_AcceptedLoad_full :
    ∃ (s : State) (bytes : List Byte) (es : List Event), s.phase = .between ∧ s.events = .load bytes :: es ∧
      bytes.length = 3584 :=
  ⟨haltedState.setEvents [.load (List.replicate 3584 0)], _, [], rfl, rfl, List.length_replicate⟩

theorem witness_NoStepChangesTheParameters : ∃ t, step State.reset = .next t := ⟨_, rfl⟩

theorem witness_RegistersChangeOnlyAsDestinationOrFlag :
    ∃ t, exec (.addVxVy 1 2) State.reset = .next t ∧ isDestination (.addVxVy 1 2) 3 = false ∧
      ((3 : Reg) = 15 → writesFlag (.addVxVy 1 2) = false) := ⟨_, rfl, rfl, by decide⟩

theorem witness_PcAdvancesByTwoUnlessWritten :
    ∃ t, State.reset.execState = .running ∧ exec (.ldVxMemI 3) State.reset = .next t ∧ t.isHalted = false ∧
      writesPc (.ldVxMemI 3) = false := ⟨_, rfl, rfl, rfl, rfl⟩

theorem witness_EachPartChangesOnlyByItsWriters :
    ∃ t, exec (.ldBVx 0) (ivs 0x300 []) = .next t ∧ writesPart (.ldBVx 0) .index = false ∧
      (Part.index = .exec → canFault (.ldBVx 0) = false) := ⟨_, rfl, rfl, by decide⟩

theorem witness_HaltedIsLeftOnlyByLoad :
    ∃ (s t : State) (f : FaultRecord), s.execState = .halted f ∧ step s = .next t ∧ t.execState = .running :=
  ⟨haltedState.setEvents [.load [0x12, 0x00]], _, _, rfl, rfl, rfl⟩

theorem witness_AwaitingKeyIsLeftOnlyByKeyOrLoad :
    ∃ (s t : State) (x : Reg), s.execState = .awaitingKey x ∧ step s = .next t ∧ t.execState = .running :=
  ⟨(State.reset.setExec (.awaitingKey 5)).setEvents [.key 12], _, 5, rfl, rfl, rfl⟩

theorem witness_OnlyDrawReadsTheFramebuffer : ∀ x y n, Instr.cls ≠ .drwVxVyN x y n := fun _ _ _ h => nomatch h

/-- A state inside a burst that meets every invariant, about to run `LD [I], V0` at 0x300. -/
def invState : State := { State.reset with i := 0x300, pc := 0x206, stack := [0x204, 0x202], mem := [(0x206, 0xF0), (0x207, 0x55)],
                                           fb := [(5, 1), (2, 3)], phase := .burst 9 }

theorem witness_StepKeepsCanonicalForm : invState.Canonical ∧ ∃ t, step invState = .next t :=
  ⟨⟨by decide, by decide⟩, _, rfl⟩
theorem witness_StepKeepsPcAndStackInRange : invState.InRange ∧ ∃ t, step invState = .next t :=
  ⟨⟨by decide, by decide, List.forall_mem_cons.mpr ⟨by decide, List.forall_mem_cons.mpr ⟨by decide, nofun⟩⟩⟩, _, rfl⟩
theorem witness_StepKeepsReturnAddressesEven : invState.EvenReturns ∧ ∃ t, step invState = .next t :=
  ⟨fun _ => List.forall_mem_cons.mpr ⟨by decide, List.forall_mem_cons.mpr ⟨by decide, nofun⟩⟩, _, rfl⟩
theorem witness_StepKeepsReservedAreaIntact : invState.ReservedIntact ∧ ∃ t, step invState = .next t := by
  refine ⟨fun _ a ha => ?_, _, rfl⟩
  have h1 : ¬ 0x206 = a := by omega
  have h2 : ¬ 0x207 = a := by omega
  simp [State.readByte, Memory.read, invState, Memory.lookup, h1, h2]
theorem witness_StepKeepsSchedulerOrderly : invState.Orderly ∧ ∃ t, step invState = .next t :=
  ⟨⟨fun d h => by cases h; exact ⟨by decide, .inl rfl⟩, fun f h => nomatch h⟩, _, rfl⟩

/-- The program runs on: the word at PC is LD [I], V0, and it is the last instruction of its burst. -/
theorem test_invState_step : (match step invState with
    | .next t => decide (t.phase = .burst 10 ∧ t.pc = 0x208 ∧ t.execState = .running)
    | .fault _ => false
    | .refused _ => false) = true := by decide

end Sys2Proof.Tests
end

section
/-! Control transfer: the register skips (41_control.md R123 to R126), over the fields of a word and the frame of a
write to PC. -/

/-! ### The fields of a word given as a sum (R81, R83) -/

namespace Sys2Proof

/-- Format XNN: major opcode, `x` and `nn`. -/
theorem fields_of_toNat_XNN {w : Word} {op : Nat} (x : Reg) (nn : Byte)
    (hw : w.toNat = op * 0x1000 + x.val * 0x100 + nn.toNat) :
    bits w 15 12 = op ∧ fieldX w = x ∧ fieldNN w = nn := by
  have hlt := w.isLt
  have hx := x.isLt
  have hn := nn.isLt
  refine ⟨?_, Fin.ext ?_, BitVec.eq_of_toNat_eq ?_⟩
  · simp only [bits, hw]; omega
  · simp only [fieldX_val, bits, hw]; omega
  · simp only [fieldNN_toNat, bits, hw]; omega

/-- Formats XY and XYN: major opcode, `x`, `y` and the last nibble. -/
theorem fields_of_toNat_XYN {w : Word} {op n : Nat} (x y : Reg) (hn : n < 16)
    (hw : w.toNat = op * 0x1000 + x.val * 0x100 + y.val * 0x10 + n) :
    bits w 15 12 = op ∧ fieldX w = x ∧ fieldY w = y ∧ fieldN w = n := by
  have hlt := w.isLt
  have hx := x.isLt
  have hy := y.isLt
  refine ⟨?_, Fin.ext ?_, Fin.ext ?_, ?_⟩
  · simp only [bits, hw]; omega
  · simp only [fieldX_val, bits, hw]; omega
  · simp only [fieldY_val, bits, hw]; omega
  · simp only [fieldN, bits, hw]; omega

/-- A word written as `base + x * 0x100 + nn` has that value: the sum fits 16 bits. -/
theorem toNat_word_XNN {base : Nat} (hb : base ≤ 0xF000) (x : Reg) (nn : Byte) :
    (BitVec.ofNat 16 (base + x.val * 0x100 + nn.toNat)).toNat = base + x.val * 0x100 + nn.toNat := by
  have hx := x.isLt
  have hn := nn.isLt
  rw [BitVec.toNat_ofNat]
  omega

/-- A word written as `base + x * 0x100 + y * 0x10` has that value: the sum fits 16 bits. -/
theorem toNat_word_XY {base : Nat} (hb : base ≤ 0xF00F) (x y : Reg) :
    (BitVec.ofNat 16 (base + x.val * 0x100 + y.val * 0x10)).toNat = base + x.val * 0x100 + y.val * 0x10 := by
  have hx := x.isLt
  have hy := y.isLt
  rw [BitVec.toNat_ofNat]
  omega

/-! ### The words of the register skips (R85) -/

theorem decode_seVxNn_word (x : Reg) (nn : Byte) :
    decode (BitVec.ofNat 16 (0x3000 + x.val * 0x100 + nn.toNat)) = .ok (.seVxNn x nn) := by
  obtain ⟨hop, hx, hnn⟩ := fields_of_toNat_XNN (op := 0x3) x nn (toNat_word_XNN (by decide) x nn)
  simp only [decode, hop, hx, hnn]

theorem decode_sneVxNn_word (x : Reg) (nn : Byte) :
    decode (BitVec.ofNat 16 (0x4000 + x.val * 0x100 + nn.toNat)) = .ok (.sneVxNn x nn) := by
  obtain ⟨hop, hx, hnn⟩ := fields_of_toNat_XNN (op := 0x4) x nn (toNat_word_XNN (by decide) x nn)
  simp only [decode, hop, hx, hnn]

theorem decode_seVxVy_word (x y : Reg) :
    decode (BitVec.ofNat 16 (0x5000 + x.val * 0x100 + y.val * 0x10)) = .ok (.seVxVy x y) := by
  obtain ⟨hop, hx, hy, hn⟩ :=
    fields_of_toNat_XYN (op := 0x5) (n := 0) x y (by decide) (toNat_word_XY (by decide) x y)
  simp only [decode, hop, hx, hy, hn, if_true]

theorem decode_sneVxVy_word (x y : Reg) :
    decode (BitVec.ofNat 16 (0x9000 + x.val * 0x100 + y.val * 0x10)) = .ok (.sneVxVy x y) := by
  obtain ⟨hop, hx, hy, hn⟩ :=
    fields_of_toNat_XYN (op := 0x9) (n := 0) x y (by decide) (toNat_word_XY (by decide) x y)
  simp only [decode, hop, hx, hy, hn, if_true]

end Sys2Proof

namespace Sys2Proof.Machine

/-! ### The skip law after the advance (R102, R128) -/

/-- A write to PC keeps everything the frame speaks of. -/
theorem keptBut_setPc (s : State) (w : Word) : KeptBut [] [] s (s.setPc w) where
  regs _ _ := rfl
  parts p _ := by cases p <;> simp [Part.Kept]
  cfg := rfl
  phase := rfl
  events := rfl

/-- From an instruction at a, the advance and the skip law together set PC to a + 4 or to a + 2. -/
theorem advance_skipIf_eq (s : State) (c : Bool) :
    s.advance.skipIf c = s.setPc (if c then s.pc + 4 else s.pc + 2) := by
  have h4 : s.pc + 2 + 2 = s.pc + 4 := by bv_omega
  rw [skipIf_eq, advance_pc, h4]
  rfl

/-! ### What the register skips answer -/

theorem exec_seVxNn (x : Reg) (nn : Byte) (s : State) :
    exec (.seVxNn x nn) s = .next (s.setPc (if s.reg x = nn then s.pc + 4 else s.pc + 2)) := by
  simp only [exec, execSeVxNn, advance_skipIf_eq, beq_iff_eq]

theorem exec_sneVxNn (x : Reg) (nn : Byte) (s : State) :
    exec (.sneVxNn x nn) s = .next (s.setPc (if s.reg x = nn then s.pc + 2 else s.pc + 4)) := by
  simp only [exec, execSneVxNn, advance_skipIf_eq, bne_iff_ne, ite_not]

theorem exec_seVxVy (x y : Reg) (s : State) :
    exec (.seVxVy x y) s = .next (s.setPc (if s.reg x = s.reg y then s.pc + 4 else s.pc + 2)) := by
  simp only [exec, execSeVxVy, advance_skipIf_eq, beq_iff_eq]

theorem exec_sneVxVy (x y : Reg) (s : State) :
    exec (.sneVxVy x y) s = .next (s.setPc (if s.reg x = s.reg y then s.pc + 2 else s.pc + 4)) := by
  simp only [exec, execSneVxVy, advance_skipIf_eq, bne_iff_ne, ite_not]

/-! ### The obligations -/

/-- Settles O21: each word decodes by its fields, and each instruction writes PC alone. -/
theorem immediateSkipsFollowTheSkipLaw : Obligations.ImmediateSkipsFollowTheSkipLaw := by
  intro x nn s
  exact ⟨decode_seVxNn_word x nn, decode_sneVxNn_word x nn,
    ⟨_, exec_seVxNn x nn s, setPc_pc .., keptBut_setPc ..⟩,
    ⟨_, exec_sneVxNn x nn s, setPc_pc .., keptBut_setPc ..⟩⟩

/-- Settles O22: as O21, for two registers, `x = y` included. -/
theorem registerSkipsFollowTheSkipLaw : Obligations.RegisterSkipsFollowTheSkipLaw := by
  intro x y s
  exact ⟨decode_seVxVy_word x y, decode_sneVxVy_word x y,
    ⟨_, exec_seVxVy x y s, setPc_pc .., keptBut_setPc ..⟩,
    ⟨_, exec_sneVxVy x y s, setPc_pc .., keptBut_setPc ..⟩⟩

end Sys2Proof.Machine
end

section
/-! Register arithmetic: loads, additions and bitwise operations (42_alu.md R142 to R149), over the words of format
8xyN, the frame of a register write and the values a flag write leaves. -/

/-! ### The words of the loads, additions and bitwise operations (R85) -/

namespace Sys2Proof

/-- A word of major opcode 8 written as `base + x * 0x100 + y * 0x10` goes to `decodeOp8` with `x`, `y` and the last
nibble of `base`. -/
theorem decodeOp8_of_word {base n : Nat} (hbase : base = 0x8000 + n) (hn : n < 16) (x y : Reg) {w : Word}
    (hw : w = BitVec.ofNat 16 (base + x.val * 0x100 + y.val * 0x10)) :
    decode w = decodeOp8 w ∧ fieldX w = x ∧ fieldY w = y ∧ fieldN w = n := by
  have hval : w.toNat = 0x8 * 0x1000 + x.val * 0x100 + y.val * 0x10 + n := by
    rw [hw, toNat_word_XY (by omega)]
    omega
  obtain ⟨hop, hx, hy, hlast⟩ := fields_of_toNat_XYN x y hn hval
  exact ⟨by simp only [decode, hop], hx, hy, hlast⟩

theorem decode_ldVxNn_word (x : Reg) (nn : Byte) :
    decode (BitVec.ofNat 16 (0x6000 + x.val * 0x100 + nn.toNat)) = .ok (.ldVxNn x nn) := by
  obtain ⟨hop, hx, hnn⟩ := fields_of_toNat_XNN (op := 0x6) x nn (toNat_word_XNN (by decide) x nn)
  simp only [decode, hop, hx, hnn]

theorem decode_addVxNn_word (x : Reg) (nn : Byte) :
    decode (BitVec.ofNat 16 (0x7000 + x.val * 0x100 + nn.toNat)) = .ok (.addVxNn x nn) := by
  obtain ⟨hop, hx, hnn⟩ := fields_of_toNat_XNN (op := 0x7) x nn (toNat_word_XNN (by decide) x nn)
  simp only [decode, hop, hx, hnn]

theorem decode_ldVxVy_word (x y : Reg) :
    decode (BitVec.ofNat 16 (0x8000 + x.val * 0x100 + y.val * 0x10)) = .ok (.ldVxVy x y) := by
  obtain ⟨h8, hx, hy, hn⟩ := decodeOp8_of_word (n := 0x0) rfl (by decide) x y rfl
  simp only [h8, decodeOp8, hx, hy, hn]

theorem decode_orVxVy_word (x y : Reg) :
    decode (BitVec.ofNat 16 (0x8001 + x.val * 0x100 + y.val * 0x10)) = .ok (.orVxVy x y) := by
  obtain ⟨h8, hx, hy, hn⟩ := decodeOp8_of_word (n := 0x1) rfl (by decide) x y rfl
  simp only [h8, decodeOp8, hx, hy, hn]

theorem decode_andVxVy_word (x y : Reg) :
    decode (BitVec.ofNat 16 (0x8002 + x.val * 0x100 + y.val * 0x10)) = .ok (.andVxVy x y) := by
  obtain ⟨h8, hx, hy, hn⟩ := decodeOp8_of_word (n := 0x2) rfl (by decide) x y rfl
  simp only [h8, decodeOp8, hx, hy, hn]

theorem decode_xorVxVy_word (x y : Reg) :
    decode (BitVec.ofNat 16 (0x8003 + x.val * 0x100 + y.val * 0x10)) = .ok (.xorVxVy x y) := by
  obtain ⟨h8, hx, hy, hn⟩ := decodeOp8_of_word (n := 0x3) rfl (by decide) x y rfl
  simp only [h8, decodeOp8, hx, hy, hn]

theorem decode_addVxVy_word (x y : Reg) :
    decode (BitVec.ofNat 16 (0x8004 + x.val * 0x100 + y.val * 0x10)) = .ok (.addVxVy x y) := by
  obtain ⟨h8, hx, hy, hn⟩ := decodeOp8_of_word (n := 0x4) rfl (by decide) x y rfl
  simp only [h8, decodeOp8, hx, hy, hn]

end Sys2Proof

namespace Sys2Proof.Machine

/-! ### The frame of a register write, alone and after a flag -/

/-- A write to one more register adds that register to what a frame leaves open. -/
theorem KeptBut.setReg {ks : List Reg} {ps : List Part} {s t : State} (h : KeptBut ks ps s t) (x : Reg) (b : Byte) :
    KeptBut (x :: ks) ps s (t.setReg x b) where
  regs k hk := by
    obtain ⟨hkx, hks⟩ := not_or.mp (mt List.mem_cons.mpr hk)
    exact (reg_setReg_other t hkx b).trans (h.regs k hks)
  parts p hp := by
    have hkept := h.parts p hp
    cases p <;> exact hkept
  cfg := h.cfg
  phase := h.phase
  events := h.events

theorem keptBut_advance_setReg (s : State) (x : Reg) (b : Byte) : KeptBut [x] [] s (s.advance.setReg x b) :=
  (keptBut_setPc s (s.pc + 2)).setReg x b

theorem keptBut_advance_setFlagThenResult (s : State) (x : Reg) (flag result : Byte) :
    KeptBut [x, 15] [] s (s.advance.setFlagThenResult x flag result) :=
  ((keptBut_setPc s (s.pc + 2)).setReg vf flag).setReg x result

/-! ### What a flag write leaves (R142, R149) -/

/-- The result wins, `x = 15` included, since it is written last. -/
theorem setFlagThenResult_reg_result (s : State) (x : Reg) (flag result : Byte) :
    (s.setFlagThenResult x flag result).reg x = result := by
  rw [setFlagThenResult_reg, if_pos rfl]

/-- VF holds the flag unless it is the destination. -/
theorem setFlagThenResult_reg_vf (s : State) {x : Reg} (hx : x ≠ 15) (flag result : Byte) :
    (s.setFlagThenResult x flag result).reg 15 = flag := by
  rw [setFlagThenResult_reg, if_neg hx, vf, if_pos rfl]

@[simp] theorem setFlagThenResult_pc (s : State) (x : Reg) (flag result : Byte) :
    (s.setFlagThenResult x flag result).pc = s.pc := rfl

theorem carryFlag_toNat (a b : Byte) : (carryFlag a b).toNat = if 255 < a.toNat + b.toNat then 1 else 0 := by
  simp only [carryFlag, bitOf_toNat, decide_eq_true_eq, gt_iff_lt]

/-! ### What the loads, additions and bitwise operations answer -/

theorem exec_ldVxNn (x : Reg) (nn : Byte) (s : State) :
    exec (.ldVxNn x nn) s = .next (s.advance.setReg x nn) := rfl

theorem exec_ldVxVy (x y : Reg) (s : State) :
    exec (.ldVxVy x y) s = .next (s.advance.setReg x (s.reg y)) := rfl

theorem exec_addVxNn (x : Reg) (nn : Byte) (s : State) :
    exec (.addVxNn x nn) s = .next (s.advance.setReg x (s.reg x + nn)) := rfl

theorem exec_orVxVy (x y : Reg) (s : State) :
    exec (.orVxVy x y) s = .next (s.advance.setReg x (s.reg x ||| s.reg y)) := rfl

theorem exec_andVxVy (x y : Reg) (s : State) :
    exec (.andVxVy x y) s = .next (s.advance.setReg x (s.reg x &&& s.reg y)) := rfl

theorem exec_xorVxVy (x y : Reg) (s : State) :
    exec (.xorVxVy x y) s = .next (s.advance.setReg x (s.reg x ^^^ s.reg y)) := rfl

theorem exec_addVxVy (x y : Reg) (s : State) :
    exec (.addVxVy x y) s =
      .next (s.advance.setFlagThenResult x (carryFlag (s.reg x) (s.reg y)) (s.reg x + s.reg y)) := rfl

/-! ### The obligations -/

/-- Settles O24: each word decodes by its fields, and each instruction writes its operand to one register. -/
theorem loadsCopyTheirOperand : Obligations.LoadsCopyTheirOperand := by
  constructor
  · intro x nn s
    exact ⟨decode_ldVxNn_word x nn, _, exec_ldVxNn x nn s, reg_setReg_same .., advance_pc s,
      keptBut_advance_setReg ..⟩
  · intro x y s
    exact ⟨decode_ldVxVy_word x y, _, exec_ldVxVy x y s, reg_setReg_same .., advance_pc s,
      keptBut_advance_setReg ..⟩

/-- Settles O25: byte addition is addition mod 256, and only V[x] is written. -/
theorem addImmediateWrapsWithoutFlag : Obligations.AddImmediateWrapsWithoutFlag := by
  intro x nn s
  refine ⟨decode_addVxNn_word x nn, _, exec_addVxNn x nn s, ?sum, advance_pc s, keptBut_advance_setReg ..⟩
  case sum => rw [reg_setReg_same, BitVec.toNat_add]

/-- Settles O26: each operation on bytes is that operation on every bit, and only V[x] is written. -/
theorem bitwiseOperationsTouchNoFlag : Obligations.BitwiseOperationsTouchNoFlag := by
  intro x y s
  refine ⟨decode_orVxVy_word x y, decode_andVxVy_word x y, decode_xorVxVy_word x y,
    ⟨_, exec_orVxVy x y s, fun b => ?or, advance_pc s, keptBut_advance_setReg ..⟩,
    ⟨_, exec_andVxVy x y s, fun b => ?and, advance_pc s, keptBut_advance_setReg ..⟩,
    ⟨_, exec_xorVxVy x y s, fun b => ?xor, advance_pc s, keptBut_advance_setReg ..⟩⟩
  case or => rw [reg_setReg_same, BitVec.getLsbD_or]
  case and => rw [reg_setReg_same, BitVec.getLsbD_and]
  case xor => rw [reg_setReg_same, BitVec.getLsbD_xor]

/-- Settles O27: the carry of the values before goes to VF, then the sum to V[x], so that with `x = 15` the sum
stays. -/
theorem addRegistersSetsCarry : Obligations.AddRegistersSetsCarry := by
  intro x y s
  refine ⟨decode_addVxVy_word x y, _, exec_addVxVy x y s, ?sum, fun hx => ?carry, setFlagThenResult_pc .., ?frame⟩
  case sum => rw [setFlagThenResult_reg_result, BitVec.toNat_add]
  case carry => rw [setFlagThenResult_reg_vf _ hx, carryFlag_toNat]
  case frame => exact keptBut_advance_setFlagThenResult ..

end Sys2Proof.Machine
end

section
/-! Display: the clear (44_display.md R191, R194), over the frame of `Display.clear()`. -/

namespace Sys2Proof.Machine

/-! ### What `Display.clear()` changes and what it keeps (R191) -/

theorem displayClear_pixel (s : State) (px py : Nat) : s.displayClear.pixel px py = false := by
  have hfb : s.displayClear.fb = [] := rfl
  simp only [State.pixel, hfb, List.not_mem_nil, decide_false]

@[simp] theorem displayClear_calls (s : State) : s.displayClear.calls = .displayClear :: s.calls := rfl

@[simp] theorem displayClear_pc (s : State) : s.displayClear.pc = s.pc := rfl

/-- A clear adds the framebuffer and the record of calls to what a frame leaves open. -/
theorem KeptBut.displayClear {ks : List Reg} {ps : List Part} {s t : State} (h : KeptBut ks ps s t) :
    KeptBut ks (.framebuffer :: .calls :: ps) s t.displayClear where
  regs k hk := h.regs k hk
  parts p hp := by
    obtain ⟨hfb, hrest⟩ := not_or.mp (mt List.mem_cons.mpr hp)
    obtain ⟨hcalls, hps⟩ := not_or.mp (mt List.mem_cons.mpr hrest)
    have hkept := h.parts p hps
    cases p with
    | framebuffer => exact absurd rfl hfb
    | calls => exact absurd rfl hcalls
    | _ => exact hkept
  cfg := h.cfg
  phase := h.phase
  events := h.events

theorem keptBut_advance_displayClear (s : State) :
    KeptBut [] [.framebuffer, .calls] s s.advance.displayClear :=
  (keptBut_setPc s (s.pc + 2)).displayClear

/-! ### The obligation -/

theorem exec_cls (s : State) : exec .cls s = .next s.advance.displayClear := rfl

/-- Settles O37: CLS is the advance and then one `Display.clear()`, which leaves no pixel set. -/
theorem clearUnsetsEveryPixel : Obligations.ClearUnsetsEveryPixel := by
  refine ⟨by decide, fun s => ⟨s.advance.displayClear, exec_cls s, displayClear_pixel s.advance, ?calls, ?pc,
    keptBut_advance_displayClear s⟩⟩
  case calls => rw [displayClear_calls, advance_eq, setPc_calls]
  case pc => rw [displayClear_pc, advance_pc]

end Sys2Proof.Machine
end

section
/-! Encoding (30_encoding.md): the fields of an encoded word, and from them the round trip of the encoder and the
decoder in both directions, the unknown words, and the agreement with the opcode map. -/

namespace Sys2Proof

open Sys2Proof.Laws

/-! ### The fields of an encoded word, format by format (R81, R83) -/

theorem op_encodeA {op : Nat} (hop : op < 16) (nnn : Addr12) : bits (encodeA op nnn) 15 12 = op := by
  have := nnn.isLt
  simp only [bits, TableRow.encodeA_toNat hop]; omega

theorem fieldNNN_encodeA {op : Nat} (hop : op < 16) (nnn : Addr12) : fieldNNN (encodeA op nnn) = nnn := by
  have := nnn.isLt
  apply BitVec.eq_of_toNat_eq
  simp only [fieldNNN_toNat, bits, TableRow.encodeA_toNat hop]; omega

theorem fields_encodeXNN {op : Nat} (hop : op < 16) (x : Reg) (nn : Byte) :
    bits (encodeXNN op x nn) 15 12 = op ∧ fieldX (encodeXNN op x nn) = x ∧ fieldNN (encodeXNN op x nn) = nn :=
  fields_of_toNat_XNN x nn (by rw [TableRow.encodeXNN_toNat hop]; omega)

theorem fields_encodeXYN {op n : Nat} (hop : op < 16) (hn : n < 16) (x y : Reg) :
    bits (encodeXYN op x y n) 15 12 = op ∧ fieldX (encodeXYN op x y n) = x ∧ fieldY (encodeXYN op x y n) = y ∧
      fieldN (encodeXYN op x y n) = n :=
  fields_of_toNat_XYN x y hn (by rw [TableRow.encodeXYN_toNat hop hn]; omega)

theorem fields_encodeX {op sub : Nat} (hop : op < 16) (hsub : sub < 256) (x : Reg) :
    bits (encodeX op x sub) 15 12 = op ∧ fieldX (encodeX op x sub) = x ∧ bits (encodeX op x sub) 7 0 = sub := by
  have hx := x.isLt
  have hw := TableRow.encodeX_toNat hop hsub x
  refine ⟨?_, Fin.ext ?_, ?_⟩
  · simp only [bits, hw]; omega
  · simp only [fieldX_val, bits, hw]; omega
  · simp only [bits, hw]; omega

/-! ### Decoding an encoded instruction -/

/-- The decoder inverts the encoder: each format fixes the major opcode, the operands and, where there is one, the
sub-opcode. -/
theorem decode_encode {i : Instr} (hi : i.wellFormed = true) : decode (encode i) = .ok i := by
  cases i with
  | cls | ret => decide
  | jpNnn nnn | callNnn nnn | ldINnn nnn | jpV0Nnn nnn => simp [encode, decode, op_encodeA, fieldNNN_encodeA]
  | seVxNn x nn | sneVxNn x nn | ldVxNn x nn | addVxNn x nn | rndVxNn x nn => simp [encode, decode, fields_encodeXNN]
  | drwVxVyN x y n =>
    have hn : n < 16 := by simpa [Instr.wellFormed] using hi
    simp [encode, decode, fields_encodeXYN, hn]
  | seVxVy x y | sneVxVy x y => simp [encode, decode, fields_encodeXYN]
  | ldVxVy x y | orVxVy x y | andVxVy x y | xorVxVy x y | addVxVy x y | subVxVy x y | shrVx x y | subnVxVy x y
  | shlVx x y => simp [encode, decode, decodeOp8, fields_encodeXYN]
  | skpVx x | sknpVx x => simp [encode, decode, decodeOpE, fields_encodeX]
  | ldVxDt x | ldVxK x | ldDtVx x | ldStVx x | addIVx x | ldFVx x | ldBVx x | ldMemIVx x | ldVxMemI x =>
    simp [encode, decode, decodeOpF, fields_encodeX]

/-- Settles O3: the word decodes by its fields, and its two bytes make up the word again. -/
theorem decodeOfEncodeIsIdentity : Obligations.DecodeOfEncodeIsIdentity := by
  intro i hi
  refine ⟨decode_encode hi, fun rest => ?_⟩
  simp only [encodeBytes, List.cons_append, List.nil_append, decodeBytes_word, decode_encode hi]

/-- Settles O1: the decoder run on each written word. -/
theorem writtenWordsDecode : Obligations.WrittenWordsDecode := by
  unfold Obligations.WrittenWordsDecode
  decide

/-! ### Encoding a decoded word -/

theorem encodeA_fields (w : Word) : encodeA (bits w 15 12) (fieldNNN w) = w := by
  have hw := w.isLt
  apply BitVec.eq_of_toNat_eq
  rw [TableRow.encodeA_toNat (by simp only [bits]; omega), fieldNNN_toNat]
  simp only [bits]; omega

theorem encodeXNN_fields (w : Word) : encodeXNN (bits w 15 12) (fieldX w) (fieldNN w) = w := by
  have hw := w.isLt
  apply BitVec.eq_of_toNat_eq
  rw [TableRow.encodeXNN_toNat (by simp only [bits]; omega), fieldNN_toNat, fieldX_val]
  simp only [bits]; omega

theorem fieldN_lt (w : Word) : fieldN w < 16 := by
  simp only [fieldN, bits]; omega

theorem encodeXYN_fields (w : Word) : encodeXYN (bits w 15 12) (fieldX w) (fieldY w) (fieldN w) = w := by
  have hw := w.isLt
  apply BitVec.eq_of_toNat_eq
  rw [TableRow.encodeXYN_toNat (by simp only [bits]; omega) (fieldN_lt w), fieldX_val, fieldY_val]
  simp only [fieldN, bits]; omega

theorem encodeX_fields (w : Word) : encodeX (bits w 15 12) (fieldX w) (bits w 7 0) = w := by
  have hw := w.isLt
  apply BitVec.eq_of_toNat_eq
  rw [TableRow.encodeX_toNat (by simp only [bits]; omega) (by simp only [bits]; omega), fieldX_val]
  simp only [bits]; omega

/-- A word is its major opcode and the twelve bits below it. -/
theorem toNat_eq_op_nnn (w : Word) : w.toNat = bits w 15 12 * 4096 + bits w 11 0 := by
  have hw := w.isLt
  simp only [bits]; omega

theorem encode_decodeOp0 {w : Word} {i : Instr} (hop : bits w 15 12 = 0) (h : decodeOp0 w = .ok i) :
    i.wellFormed = true ∧ encode i = w := by
  have hw := toNat_eq_op_nnn w
  unfold decodeOp0 at h
  split at h
  · cases h; exact ⟨rfl, BitVec.eq_of_toNat_eq (by rw [hw, hop, ‹bits w 11 0 = _›]; rfl)⟩
  · split at h
    · cases h; exact ⟨rfl, BitVec.eq_of_toNat_eq (by rw [hw, hop, ‹bits w 11 0 = _›]; rfl)⟩
    · cases h

theorem encode_decodeOp8 {w : Word} {i : Instr} (hop : bits w 15 12 = 8) (h : decodeOp8 w = .ok i) :
    i.wellFormed = true ∧ encode i = w := by
  have hw := encodeXYN_fields w
  unfold decodeOp8 at h
  split at h <;> cases h <;> exact ⟨rfl, by simpa only [encode, hop, ‹fieldN w = _›] using hw⟩

theorem encode_decodeOpE {w : Word} {i : Instr} (hop : bits w 15 12 = 0xE) (h : decodeOpE w = .ok i) :
    i.wellFormed = true ∧ encode i = w := by
  have hw := encodeX_fields w
  unfold decodeOpE at h
  split at h <;> cases h <;> exact ⟨rfl, by simpa only [encode, hop, ‹bits w 7 0 = _›] using hw⟩

theorem encode_decodeOpF {w : Word} {i : Instr} (hop : bits w 15 12 = 0xF) (h : decodeOpF w = .ok i) :
    i.wellFormed = true ∧ encode i = w := by
  have hw := encodeX_fields w
  unfold decodeOpF at h
  split at h <;> cases h <;> exact ⟨rfl, by simpa only [encode, hop, ‹bits w 7 0 = _›] using hw⟩

/-- A decoded instruction names its word: no bit of the word is dropped. -/
theorem encode_of_decode {w : Word} {i : Instr} (h : decode w = .ok i) : i.wellFormed = true ∧ encode i = w := by
  have hA := encodeA_fields w
  have hXNN := encodeXNN_fields w
  have hXYN := encodeXYN_fields w
  unfold decode at h
  split at h
  case h_1 hop => exact encode_decodeOp0 hop h
  case h_9 hop => exact encode_decodeOp8 hop h
  case h_15 hop => exact encode_decodeOpE hop h
  case h_16 hop => exact encode_decodeOpF hop h
  case h_2 hop | h_3 hop | h_11 hop | h_12 hop => cases h; exact ⟨rfl, by simpa only [encode, hop] using hA⟩
  case h_4 hop | h_5 hop | h_7 hop | h_8 hop | h_13 hop => cases h; exact ⟨rfl, by simpa only [encode, hop] using hXNN⟩
  case h_14 hop =>
    cases h
    exact ⟨by simp [Instr.wellFormed, fieldN_lt], by simpa only [encode, hop] using hXYN⟩
  case h_6 hop | h_10 hop =>
    split at h <;> cases h
    exact ⟨rfl, by simpa only [encode, hop, ‹fieldN w = 0›] using hXYN⟩
  case h_17 => cases h

/-- Settles O4: each format's fields make up the word again. -/
theorem encodeOfDecodeIsIdentity : Obligations.EncodeOfDecodeIsIdentity :=
  fun _ _ => encode_of_decode

/-! ### The unknown words (R86) -/

/-- The list of R86, by major opcode. -/
def ListedUnknown (w : Word) : Prop :=
  (bits w 15 12 = 0 ∧ w ≠ 0x00E0 ∧ w ≠ 0x00EE) ∨
  ((bits w 15 12 = 5 ∨ bits w 15 12 = 9) ∧ bits w 3 0 ≠ 0) ∨
  (bits w 15 12 = 8 ∧ bits w 3 0 ∈ [0x8, 0x9, 0xA, 0xB, 0xC, 0xD, 0xF]) ∨
  (bits w 15 12 = 0xE ∧ bits w 7 0 ∉ [0x9E, 0xA1]) ∨
  (bits w 15 12 = 0xF ∧ bits w 7 0 ∉ [0x07, 0x0A, 0x15, 0x18, 0x1E, 0x29, 0x33, 0x55, 0x65])

theorem decodeOp0_eq_error {w : Word} (hop : bits w 15 12 = 0) :
    decodeOp0 w = .error (.unknownOpcode w) ↔ w ≠ 0x00E0 ∧ w ≠ 0x00EE := by
  have key : ∀ c : Word, bits c 15 12 = 0 → (bits w 11 0 = bits c 11 0 ↔ w = c) := by
    intro c hc
    refine ⟨fun h => BitVec.eq_of_toNat_eq ?_, fun h => h ▸ rfl⟩
    rw [toNat_eq_op_nnn w, toNat_eq_op_nnn c, hop, hc, h]
  have hE0 : bits w 11 0 = 0x0E0 ↔ w = 0x00E0 := key 0x00E0 (by decide)
  have hEE : bits w 11 0 = 0x0EE ↔ w = 0x00EE := key 0x00EE (by decide)
  unfold decodeOp0
  simp only [hE0, hEE]
  split
  · simp_all
  · split <;> simp_all

theorem decodeOp8_eq_error (w : Word) :
    decodeOp8 w = .error (.unknownOpcode w) ↔ bits w 3 0 ∈ [0x8, 0x9, 0xA, 0xB, 0xC, 0xD, 0xF] := by
  have hn : bits w 3 0 < 16 := fieldN_lt w
  unfold decodeOp8 fieldN
  generalize bits w 3 0 = n at hn ⊢
  interval_cases n <;> simp

theorem decodeOpE_eq_error (w : Word) :
    decodeOpE w = .error (.unknownOpcode w) ↔ bits w 7 0 ∉ [0x9E, 0xA1] := by
  unfold decodeOpE
  split <;> simp_all

theorem decodeOpF_eq_error (w : Word) : decodeOpF w = .error (.unknownOpcode w) ↔
    bits w 7 0 ∉ [0x07, 0x0A, 0x15, 0x18, 0x1E, 0x29, 0x33, 0x55, 0x65] := by
  unfold decodeOpF
  split <;> simp_all

/-- The words the decoder refuses are those listed. -/
theorem decode_eq_error_iff (w : Word) : decode w = .error (.unknownOpcode w) ↔ ListedUnknown w := by
  have hop : bits w 15 12 < 16 := by simp only [bits]; omega
  unfold decode ListedUnknown fieldN
  split
  case h_1 h => simp [h, decodeOp0_eq_error h]
  case h_9 h => simp only [h, decodeOp8_eq_error]; simp
  case h_15 h => simp only [h, decodeOpE_eq_error]; simp
  case h_16 h => simp only [h, decodeOpF_eq_error]; simp
  case h_6 h | h_10 h => split <;> simp_all
  case h_17 => interval_cases bits w 15 12 <;> contradiction
  case h_2 h | h_3 h | h_4 h | h_5 h | h_7 h | h_8 h | h_11 h | h_12 h | h_13 h | h_14 h => simp [h]

/-- A word is refused in one way only. -/
theorem eq_unknownOpcode_of_decode_eq_error {w : Word} {e : Reject} (h : decode w = .error e) :
    e = .unknownOpcode w := by
  unfold decode decodeOp0 decodeOp8 decodeOpE decodeOpF at h
  repeat' split at h
  all_goals cases h
  all_goals rfl

/-! ### The opcode map (R84) -/

/-- No word can match both rows: they fix a common bit differently. -/
def OpcodeRow.Excludes (r r' : OpcodeRow) : Prop := r.matchBits &&& r'.mask ≠ r'.matchBits &&& r.mask

theorem OpcodeRow.Excludes.not_hits {r r' : OpcodeRow} (h : r.Excludes r') {w : Word} (hr : r.hits w = true) :
    r'.hits w = false := by
  simp only [OpcodeRow.hits, beq_iff_eq, beq_eq_false_iff_ne] at hr ⊢
  rintro hr'
  exact h (by rw [← hr, ← hr', BitVec.and_assoc, BitVec.and_assoc, BitVec.and_comm r.mask])

theorem OpcodeRow.Excludes.symm {r r' : OpcodeRow} (h : r.Excludes r') : r'.Excludes r := Ne.symm h

theorem opcodeMap_excludes : opcodeMap.Pairwise OpcodeRow.Excludes := by
  unfold OpcodeRow.Excludes; decide

/-- Among rows that exclude each other, a row that a word matches is the only one. -/
theorem filter_hits_eq_singleton {rows : List OpcodeRow} (hrows : rows.Pairwise OpcodeRow.Excludes)
    {r : OpcodeRow} (hr : r ∈ rows) {w : Word} (hw : r.hits w = true) : rows.filter (·.hits w) = [r] := by
  induction rows with
  | nil => cases hr
  | cons q rows ih =>
    obtain ⟨hq, hrest⟩ := List.pairwise_cons.mp hrows
    rcases List.mem_cons.mp hr with rfl | hmem
    · have hnone : rows.filter (·.hits w) = [] :=
        List.filter_eq_nil_iff.mpr fun q' hq' => by simp [(hq q' hq').not_hits hw]
      simp only [List.filter_cons, hw, hnone, if_true]
    · have hqw : q.hits w = false := (hq r hmem).symm.not_hits hw
      simpa only [List.filter_cons, hqw, Bool.false_eq_true, if_false] using ih hrest hmem

/-- A row fixes the major opcode, and under a mask that ends in `F`, `FF` or `FFFF` what that covers. -/
theorem fields_of_hits {r : OpcodeRow} (hr : r ∈ opcodeMap) {w : Word} (hw : r.hits w = true) :
    bits w 15 12 = bits r.matchBits 15 12 ∧ (r.mask = 0xF00F → bits w 3 0 = bits r.matchBits 3 0) ∧
      (r.mask = 0xF0FF → bits w 7 0 = bits r.matchBits 7 0) ∧ (r.mask = 0xFFFF → w = r.matchBits) := by
  have hmasks : ∀ r ∈ opcodeMap, r.mask ∈ [0xF000#16, 0xF00F#16, 0xF0FF#16, 0xFFFF#16] := by decide
  have hand : w &&& r.mask = r.matchBits := beq_iff_eq.mp hw
  have hwlt := w.isLt
  rw [← hand]
  simp only [List.mem_cons, List.not_mem_nil, or_false] at hmasks
  rcases hmasks r hr with hm | hm | hm | hm
  · rw [hm, and_maskF000]
    refine ⟨?_, fun h => absurd h (by decide), fun h => absurd h (by decide), fun h => absurd h (by decide)⟩
    simp only [bits, BitVec.toNat_ofNat]; omega
  · rw [hm, and_maskF00F]
    refine ⟨?_, fun _ => ?_, fun h => absurd h (by decide), fun h => absurd h (by decide)⟩ <;>
      (simp only [bits, BitVec.toNat_ofNat]; omega)
  · rw [hm, and_maskF0FF]
    refine ⟨?_, fun h => absurd h (by decide), fun _ => ?_, fun h => absurd h (by decide)⟩ <;>
      (simp only [bits, BitVec.toNat_ofNat]; omega)
  · rw [hm, and_maskFFFF]
    exact ⟨rfl, fun _ => rfl, fun _ => rfl, fun _ => rfl⟩

/-- The rows of a major opcode that has unknown words fix more than the major opcode. -/
theorem not_hits_of_listedUnknown {w : Word} (hw : ListedUnknown w) {r : OpcodeRow} (hr : r ∈ opcodeMap) :
    r.hits w = false := by
  by_contra hhit
  obtain ⟨hop, hF, hFF, hFFFF⟩ := fields_of_hits hr (by simpa using hhit)
  have h0 : ∀ r ∈ opcodeMap, bits r.matchBits 15 12 = 0 →
      r.mask = 0xFFFF ∧ (r.matchBits = 0x00E0 ∨ r.matchBits = 0x00EE) := by decide
  have h59 : ∀ r ∈ opcodeMap, bits r.matchBits 15 12 = 5 ∨ bits r.matchBits 15 12 = 9 →
      r.mask = 0xF00F ∧ bits r.matchBits 3 0 = 0 := by decide
  have h8 : ∀ r ∈ opcodeMap, bits r.matchBits 15 12 = 8 →
      r.mask = 0xF00F ∧ bits r.matchBits 3 0 ∉ [0x8, 0x9, 0xA, 0xB, 0xC, 0xD, 0xF] := by decide
  have hE : ∀ r ∈ opcodeMap, bits r.matchBits 15 12 = 0xE →
      r.mask = 0xF0FF ∧ bits r.matchBits 7 0 ∈ [0x9E, 0xA1] := by decide
  have hFx : ∀ r ∈ opcodeMap, bits r.matchBits 15 12 = 0xF →
      r.mask = 0xF0FF ∧ bits r.matchBits 7 0 ∈ [0x07, 0x0A, 0x15, 0x18, 0x1E, 0x29, 0x33, 0x55, 0x65] := by decide
  rw [ListedUnknown, hop] at hw
  rcases hw with ⟨h, hcls, hret⟩ | ⟨h, hn⟩ | ⟨h, hn⟩ | ⟨h, hs⟩ | ⟨h, hs⟩
  · obtain ⟨hm, hmatch⟩ := h0 r hr h
    rcases hmatch with hmatch | hmatch
    · exact hcls ((hFFFF hm).trans hmatch)
    · exact hret ((hFFFF hm).trans hmatch)
  · obtain ⟨hm, hmatch⟩ := h59 r hr h
    exact hn ((hF hm).trans hmatch)
  · obtain ⟨hm, hmatch⟩ := h8 r hr h
    exact hmatch (hF hm ▸ hn)
  · obtain ⟨hm, hmatch⟩ := hE r hr h
    exact hs (hFF hm ▸ hmatch)
  · obtain ⟨hm, hmatch⟩ := hFx r hr h
    exact hs (hFF hm ▸ hmatch)

/-- An instruction's word matches the row it stands for. -/
theorem encode_hits_row : ∀ i : Instr, TableRow.Statement i
  | .cls => TableRow.cls
  | .ret => TableRow.ret
  | .jpNnn nnn => TableRow.jpNnn nnn
  | .callNnn nnn => TableRow.callNnn nnn
  | .seVxNn x nn => TableRow.seVxNn x nn
  | .sneVxNn x nn => TableRow.sneVxNn x nn
  | .seVxVy x y => TableRow.seVxVy x y
  | .sneVxVy x y => TableRow.sneVxVy x y
  | .ldVxNn x nn => TableRow.ldVxNn x nn
  | .addVxNn x nn => TableRow.addVxNn x nn
  | .ldVxVy x y => TableRow.ldVxVy x y
  | .orVxVy x y => TableRow.orVxVy x y
  | .andVxVy x y => TableRow.andVxVy x y
  | .xorVxVy x y => TableRow.xorVxVy x y
  | .addVxVy x y => TableRow.addVxVy x y
  | .subVxVy x y => TableRow.subVxVy x y
  | .shrVx x y => TableRow.shrVx x y
  | .subnVxVy x y => TableRow.subnVxVy x y
  | .shlVx x y => TableRow.shlVx x y
  | .ldINnn nnn => TableRow.ldINnn nnn
  | .jpV0Nnn nnn => TableRow.jpV0Nnn nnn
  | .rndVxNn x nn => TableRow.rndVxNn x nn
  | .drwVxVyN x y n => TableRow.drwVxVyN x y n
  | .skpVx x => TableRow.skpVx x
  | .sknpVx x => TableRow.sknpVx x
  | .ldVxDt x => TableRow.ldVxDt x
  | .ldVxK x => TableRow.ldVxK x
  | .ldDtVx x => TableRow.ldDtVx x
  | .ldStVx x => TableRow.ldStVx x
  | .addIVx x => TableRow.addIVx x
  | .ldFVx x => TableRow.ldFVx x
  | .ldBVx x => TableRow.ldBVx x
  | .ldMemIVx x => TableRow.ldMemIVx x
  | .ldVxMemI x => TableRow.ldVxMemI x

/-- Settles O2: the rows exclude each other, a decoded word encodes back into its row, and a refused word matches no
row. -/
theorem decodeAgreesWithOpcodeMap : Obligations.DecodeAgreesWithOpcodeMap := by
  intro w
  refine ⟨fun i h => ?decoded, fun e h => ?refused⟩
  case decoded =>
    obtain ⟨hwf, hword⟩ := encode_of_decode h
    obtain ⟨r, hrow, hhits⟩ := encode_hits_row i hwf
    exact ⟨r, hrow, filter_hits_eq_singleton opcodeMap_excludes (List.mem_of_getElem? hrow) (hword ▸ hhits)⟩
  case refused =>
    obtain rfl := eq_unknownOpcode_of_decode_eq_error h
    have hlisted := (decode_eq_error_iff w).mp h
    exact ⟨rfl, List.filter_eq_nil_iff.mpr fun r hr => by simp [not_hits_of_listedUnknown hlisted hr]⟩

end Sys2Proof

namespace Sys2Proof.Machine

/-- A fetched word that decodes to nothing is raised as UNKNOWN_OPCODE (R103). -/
theorem fetchDecode_of_decode_eq_error {s : State} {w : Word} {r : Reject} (hf : s.fetch = .ok w)
    (hd : decode w = .error r) : s.fetchDecode = .error ⟨.unknownOpcode, some w, none⟩ := by
  simp only [State.fetchDecode, hf, hd]

/-- A fetch or decode that faults is raised, and nothing else happens (R103, R104). -/
theorem runInstr_of_fetchDecode_eq_error {s : State} {e : FetchFault} (h : s.fetchDecode = .error e) :
    runInstr s = .next (haltedAt s e.code e.word e.addr) := by
  simp only [runInstr, h, raise_eq, haltedAt]

theorem runInstr_of_fetchDecode_eq_ok {s : State} {i : Instr} (h : s.fetchDecode = .ok i) :
    runInstr s = exec i s := by
  simp only [runInstr, h]

/-- Settles O5: the decoder's refusals are the list of R86, and a refused word is raised with PC and word. -/
theorem unknownWordsAreThoseListedAndHalt : Obligations.UnknownWordsAreThoseListedAndHalt :=
  fun w => ⟨decode_eq_error_iff w, fun _ hf hd =>
    runInstr_of_fetchDecode_eq_error (fetchDecode_of_decode_eq_error hf hd)⟩

end Sys2Proof.Machine
end

section
/-! The words of the instructions as sums (R83, R85), the frame of each update of the state, and the instructions that
are settled by one equation each: control transfer, subtractions and shifts, random, the index register, keys and
timers. -/

/-! ### Words given as sums -/

namespace Sys2Proof

theorem decode_of_encode_eq {i : Instr} {w : Word} (hi : i.wellFormed = true) (h : encode i = w) :
    decode w = .ok i := h ▸ decode_encode hi

theorem encodeA_eq_sum {op base : Nat} (hbase : base = op * 0x1000) (nnn : Addr12) :
    encodeA op nnn = BitVec.ofNat 16 (base + nnn.toNat) :=
  congrArg (BitVec.ofNat 16) (by omega)

theorem encodeXNN_eq_sum {op base : Nat} (hbase : base = op * 0x1000) (x : Reg) (nn : Byte) :
    encodeXNN op x nn = BitVec.ofNat 16 (base + x.val * 0x100 + nn.toNat) :=
  congrArg (BitVec.ofNat 16) (by omega)

theorem encodeXY_eq_sum {op n base : Nat} (hbase : base = op * 0x1000 + n) (x y : Reg) :
    encodeXYN op x y n = BitVec.ofNat 16 (base + x.val * 0x100 + y.val * 0x10) :=
  congrArg (BitVec.ofNat 16) (by omega)

theorem encodeXYN_eq_sum {op base : Nat} (hbase : base = op * 0x1000) (x y : Reg) (n : Nat) :
    encodeXYN op x y n = BitVec.ofNat 16 (base + x.val * 0x100 + y.val * 0x10 + n) :=
  congrArg (BitVec.ofNat 16) (by omega)

theorem encodeX_eq_sum {op sub base : Nat} (hbase : base = op * 0x1000 + sub) (x : Reg) :
    encodeX op x sub = BitVec.ofNat 16 (base + x.val * 0x100) :=
  congrArg (BitVec.ofNat 16) (by omega)

theorem zextAddr_toNat (nnn : Addr12) : (Machine.zextAddr nnn).toNat = nnn.toNat := by
  have := nnn.isLt
  simp only [Machine.zextAddr, BitVec.toNat_ofNat]; omega

theorem zextByte_toNat (b : Byte) : (Machine.zextByte b).toNat = b.toNat := by
  have := b.isLt
  simp only [Machine.zextByte, BitVec.toNat_ofNat]; omega

end Sys2Proof

namespace Sys2Proof.Machine

/-! ### Frames -/

theorem Part.Kept.trans {p : Part} {s t u : State} (h : p.Kept s t) (h' : p.Kept t u) : p.Kept s u := by
  cases p with
  | memory => exact fun a => (h' a).trans (h a)
  | random | keys => exact ⟨h'.1.trans h.1, h'.2.trans h.2⟩
  | _ => exact Eq.trans h' h

/-- Two updates leave open what either does. -/
theorem KeptBut.trans {ks ks' : List Reg} {ps ps' : List Part} {s t u : State} (h : KeptBut ks ps s t)
    (h' : KeptBut ks' ps' t u) : KeptBut (ks ++ ks') (ps ++ ps') s u where
  regs k hk := by
    obtain ⟨hks, hks'⟩ := not_or.mp (mt List.mem_append.mpr hk)
    exact (h'.regs k hks').trans (h.regs k hks)
  parts p hp := by
    obtain ⟨hps, hps'⟩ := not_or.mp (mt List.mem_append.mpr hp)
    exact (h.parts p hps).trans (h'.parts p hps')
  cfg := h'.cfg.trans h.cfg
  phase := h'.phase.trans h.phase
  events := h'.events.trans h.events

theorem keptBut_advance (s : State) : KeptBut [] [] s s.advance := keptBut_setPc s _

/-- An update of one part. -/
theorem keptBut_of_part {p₀ : Part} {s t : State} (hregs : ∀ k, t.reg k = s.reg k)
    (hparts : ∀ p, p ≠ p₀ → p.Kept s t) (hcfg : t.cfg = s.cfg) (hphase : t.phase = s.phase)
    (hevents : t.events = s.events) : KeptBut [] [p₀] s t :=
  ⟨fun k _ => hregs k, fun p hp => hparts p (mt List.mem_singleton.mpr hp), hcfg, hphase, hevents⟩

theorem keptBut_setI (s : State) (w : Word) : KeptBut [] [.index] s (s.setI w) :=
  keptBut_of_part (fun _ => rfl) (fun p hp => by cases p <;> simp_all [Part.Kept]) rfl rfl rfl

theorem keptBut_setStack (s : State) (ws : List Word) : KeptBut [] [.stack] s (s.setStack ws) :=
  keptBut_of_part (fun _ => rfl) (fun p hp => by cases p <;> simp_all [Part.Kept]) rfl rfl rfl

theorem keptBut_setDt (s : State) (b : Byte) : KeptBut [] [.delayTimer] s (s.setDt b) :=
  keptBut_of_part (fun _ => rfl) (fun p hp => by cases p <;> simp_all [Part.Kept]) rfl rfl rfl

theorem keptBut_setSt (s : State) (b : Byte) : KeptBut [] [.soundTimer] s (s.setSt b) :=
  keptBut_of_part (fun _ => rfl) (fun p hp => by cases p <;> simp_all [Part.Kept]) rfl rfl rfl

theorem keptBut_setExec (s : State) (e : ExecState) : KeptBut [] [.exec] s (s.setExec e) :=
  keptBut_of_part (fun _ => rfl) (fun p hp => by cases p <;> simp_all [Part.Kept]) rfl rfl rfl

theorem keptBut_drawn (s : State) : KeptBut [] [.random] s s.drawn :=
  keptBut_of_part (fun _ => rfl) (fun p hp => by cases p <;> simp_all [Part.Kept]) rfl rfl rfl

theorem keptBut_queried (s : State) : KeptBut [] [.keys] s s.queried :=
  keptBut_of_part (fun _ => rfl) (fun p hp => by cases p <;> simp_all [Part.Kept]) rfl rfl rfl

theorem keptBut_storeBytes (s : State) (base : Nat) (bs : List Byte) :
    KeptBut [] [.memory] s (s.storeBytes base bs) :=
  keptBut_of_part (storeBytes_reg bs s base) (fun p hp => by cases p <;> simp_all [Part.Kept])
    (storeBytes_cfg ..) (storeBytes_phase ..) (storeBytes_events ..)

theorem keptBut_loadRegs (s : State) (ks : List Reg) : KeptBut ks [] s (s.loadRegs ks) where
  regs k hk := (loadRegs_reg ks s k).trans (if_neg hk)
  parts p _ := by cases p <;> simp [Part.Kept]
  cfg := loadRegs_cfg ks s
  phase := loadRegs_phase ks s
  events := loadRegs_events ks s

theorem keptBut_plot (s : State) (ps : List (Nat × Nat)) :
    KeptBut [] [.framebuffer, .calls] s (s.plot ps).1 where
  regs k _ := plot_reg ps s k
  parts p hp := by cases p <;> simp_all [Part.Kept]
  cfg := plot_cfg ps s
  phase := plot_phase ps s
  events := plot_events ps s

/-! ### Control transfer (41_control.md R120 to R122, R127) -/

theorem exec_jpNnn (nnn : Addr12) (s : State) : exec (.jpNnn nnn) s = .next (s.setPc (zextAddr nnn)) := rfl

theorem exec_jpV0Nnn (nnn : Addr12) (s : State) :
    exec (.jpV0Nnn nnn) s = .next (s.setPc (zextAddr nnn + zextByte (s.reg 0))) := rfl

theorem jumpTarget_toNat (nnn : Addr12) (b : Byte) :
    (zextAddr nnn + zextByte b).toNat = nnn.toNat + b.toNat := by
  have := nnn.isLt
  have := b.isLt
  rw [BitVec.toNat_add, zextAddr_toNat, zextByte_toNat]
  omega

theorem exec_ret_cons {s : State} {w : Word} {ws : List Word} (h : s.stack = w :: ws) :
    exec .ret s = .next ((s.setStack ws).setPc w) := by
  have hpop : s.advance.pop = some (w, s.advance.setStack ws) := pop_eq_some.mpr ⟨ws, h, rfl⟩
  simp only [exec, execRet, hpop]
  rfl

theorem exec_ret_nil {s : State} (h : s.sp = 0) :
    exec .ret s = .next (haltedAt s .stackUnderflow (some (encode .ret)) none) := by
  have hpop : s.advance.pop = none := pop_eq_none.mpr h
  simp only [exec, execRet, hpop]
  rfl

theorem exec_callNnn_free {s : State} (h : s.sp < s.cfg.stackDepth) (nnn : Addr12) :
    exec (.callNnn nnn) s = .next ((s.setStack ((s.pc + 2) :: s.stack)).setPc (zextAddr nnn)) := by
  have hpush : s.advance.push (s.pc + 2) = some (s.advance.setStack ((s.pc + 2) :: s.stack)) :=
    push_eq_some.mpr ⟨h, rfl⟩
  simp only [exec, execCallNnn, advance_pc, hpush]
  rfl

theorem exec_callNnn_full {s : State} (h : s.cfg.stackDepth ≤ s.sp) (nnn : Addr12) :
    exec (.callNnn nnn) s = .next (haltedAt s .stackOverflow (some (encode (.callNnn nnn))) none) := by
  have hpush : s.advance.push (s.pc + 2) = none := push_eq_none.mpr h
  simp only [exec, execCallNnn, advance_pc, hpush]
  rfl

theorem keptBut_setStack_setPc (s : State) (ws : List Word) (w : Word) :
    KeptBut [] [.stack] s ((s.setStack ws).setPc w) :=
  (keptBut_setStack s ws).trans (keptBut_setPc _ w)

/-- Settles O18: the pop succeeds exactly on a stack that is not empty. -/
theorem retPopsPcOrUnderflows : Obligations.RetPopsPcOrUnderflows := by
  refine ⟨by decide, fun s => ⟨fun w ws h => ?_, fun h => exec_ret_nil h⟩⟩
  have hsp : s.sp = ws.length + 1 := by simp [State.sp, h]
  exact ⟨_, exec_ret_cons h, rfl, rfl, hsp.symm, keptBut_setStack_setPc s ws w⟩

/-- Settles O19: the push succeeds exactly on a stack that is not full. -/
theorem callPushesReturnAddressOrOverflows : Obligations.CallPushesReturnAddressOrOverflows := by
  intro nnn s
  have hword : encode (.callNnn nnn) = BitVec.ofNat 16 (0x2000 + nnn.toNat) := encodeA_eq_sum rfl nnn
  refine ⟨decode_of_encode_eq rfl hword, fun h => ?free, fun h => ?full⟩
  case free =>
    exact ⟨_, exec_callNnn_free h nnn, zextAddr_toNat nnn, rfl, rfl, keptBut_setStack_setPc ..⟩
  case full => rw [exec_callNnn_full h.ge, hword]

/-- Settles O20: both targets fit 16 bits, so neither is reduced. -/
theorem jumpsWriteTheirTarget : Obligations.JumpsWriteTheirTarget := by
  intro nnn s
  exact ⟨decode_of_encode_eq rfl (encodeA_eq_sum rfl nnn), decode_of_encode_eq rfl (encodeA_eq_sum rfl nnn),
    ⟨_, exec_jpNnn nnn s, zextAddr_toNat nnn, keptBut_setPc ..⟩,
    ⟨_, exec_jpV0Nnn nnn s, jumpTarget_toNat nnn _, keptBut_setPc ..⟩⟩

/-! ### Nested calls (R129) -/

theorem execAll_cons {i : Instr} {is : List Instr} {s t : State} (h : exec i s = .next t) :
    execAll (i :: is) s = execAll is t := by
  simp only [execAll, h]

theorem execAll_append {is js : List Instr} {s t : State} (h : execAll is s = .next t) :
    execAll (is ++ js) s = execAll js t := by
  induction is generalizing s with
  | nil => cases h; rfl
  | cons i is ih =>
    simp only [List.cons_append, execAll] at h ⊢
    split at h
    · exact ih h
    · cases h
    · cases h

/-- Calls that fit the free stack, then as many returns, leave the stack as it was, and the last return is to the
address after the first call: the calls and returns in between leave that address on top. -/
theorem execAll_calls_rets (targets : List Addr12) (s : State) (h : s.sp + targets.length ≤ s.cfg.stackDepth) :
    ∃ t, execAll (targets.map .callNnn ++ List.replicate targets.length .ret) s = .next t ∧
      t.stack = s.stack ∧ (targets ≠ [] → t.pc = s.pc + 2) := by
  induction targets generalizing s with
  | nil => exact ⟨s, rfl, rfl, fun hne => absurd rfl hne⟩
  | cons nnn targets ih =>
    rw [List.length_cons] at h
    have hcall := exec_callNnn_free (s := s) (by omega) nnn
    generalize hs' : (s.setStack ((s.pc + 2) :: s.stack)).setPc (zextAddr nnn) = s' at hcall
    have hsp : s'.sp = s.sp + 1 := by rw [← hs']; rfl
    have hcfg : s'.cfg = s.cfg := by rw [← hs']; rfl
    have hstack : s'.stack = (s.pc + 2) :: s.stack := by rw [← hs']; rfl
    obtain ⟨t, hrun, hkept, -⟩ := ih s' (by rw [hsp, hcfg]; omega)
    refine ⟨(t.setStack s.stack).setPc (s.pc + 2), ?run, rfl, fun _ => rfl⟩
    case run =>
      rw [List.length_cons, List.replicate_succ', ← List.append_assoc, List.map_cons, List.cons_append,
        List.cons_append, execAll_cons hcall, execAll_append hrun, execAll_cons (exec_ret_cons (hkept.trans hstack))]
      rfl

/-- Settles O23: by induction on the calls, each matched by the return that takes its entry off. -/
theorem nestedCallsThenReturnsRestorePc : Obligations.NestedCallsThenReturnsRestorePc := by
  intro nnn targets s h
  obtain ⟨t, hrun, hstack, hpc⟩ := execAll_calls_rets (nnn :: targets) s h
  exact ⟨t, hrun, hpc (List.cons_ne_nil _ _), hstack⟩

/-! ### Subtractions and shifts (42_alu.md R150 to R153) -/

theorem notBorrowFlag_toNat (a b : Byte) : (notBorrowFlag a b).toNat = if b.toNat < a.toNat then 1 else 0 := by
  simp only [notBorrowFlag, bitOf_toNat, decide_eq_true_eq, gt_iff_lt]

theorem sub_toNat_byte (a b : Byte) : (a - b).toNat = (a.toNat + 256 - b.toNat) % 256 := by
  have := b.isLt
  rw [BitVec.toNat_sub]; omega

theorem shiftedOutRight_toNat (b : Byte) : (shiftedOutRight b).toNat = b.toNat % 2 := by
  simp only [shiftedOutRight, BitVec.toNat_ofNat]; omega

theorem shiftedOutLeft_toNat (b : Byte) : (shiftedOutLeft b).toNat = b.toNat / 128 := by
  have := b.isLt
  simp only [shiftedOutLeft, BitVec.toNat_ofNat]; omega

theorem shiftRight_one_toNat (b : Byte) : (b >>> 1).toNat = b.toNat / 2 := by
  rw [BitVec.toNat_ushiftRight, Nat.shiftRight_eq_div_pow, Nat.pow_one]

theorem shiftLeft_one_toNat (b : Byte) : (b <<< 1).toNat = b.toNat * 2 % 256 := by
  rw [BitVec.toNat_shiftLeft, Nat.shiftLeft_eq, Nat.pow_one]

theorem exec_subVxVy (x y : Reg) (s : State) :
    exec (.subVxVy x y) s =
      .next (s.advance.setFlagThenResult x (notBorrowFlag (s.reg x) (s.reg y)) (s.reg x - s.reg y)) := rfl

theorem exec_subnVxVy (x y : Reg) (s : State) :
    exec (.subnVxVy x y) s =
      .next (s.advance.setFlagThenResult x (notBorrowFlag (s.reg y) (s.reg x)) (s.reg y - s.reg x)) := rfl

theorem exec_shrVx (x y : Reg) (s : State) :
    exec (.shrVx x y) s =
      .next (s.advance.setFlagThenResult x (shiftedOutRight (s.reg x)) (s.reg x >>> 1)) := rfl

theorem exec_shlVx (x y : Reg) (s : State) :
    exec (.shlVx x y) s =
      .next (s.advance.setFlagThenResult x (shiftedOutLeft (s.reg x)) (s.reg x <<< 1)) := rfl

/-- What a flag write after the advance leaves: the result, the flag unless `x = 15`, and all else as it was. -/
theorem flagThenResult_spec {i : Instr} {s : State} {x : Reg} {flag result : Byte}
    (h : exec i s = .next (s.advance.setFlagThenResult x flag result)) :
    ∃ t, exec i s = .next t ∧ (t.reg x).toNat = result.toNat ∧ (x ≠ 15 → (t.reg 15).toNat = flag.toNat) ∧
      t.pc = s.pc + 2 ∧ KeptBut [x, 15] [] s t :=
  ⟨_, h, by rw [setFlagThenResult_reg_result], fun hx => by rw [setFlagThenResult_reg_vf _ hx], rfl,
    keptBut_advance_setFlagThenResult ..⟩

/-- Settles O28: byte subtraction is subtraction mod 256, and the flag compares the values before. -/
theorem subtractionsSetStrictNotBorrow : Obligations.SubtractionsSetStrictNotBorrow := by
  intro x y s
  refine ⟨decode_of_encode_eq rfl (encodeXY_eq_sum rfl x y), decode_of_encode_eq rfl (encodeXY_eq_sum rfl x y),
    ?sub, ?subn⟩
  case sub => simpa only [sub_toNat_byte, notBorrowFlag_toNat] using flagThenResult_spec (exec_subVxVy x y s)
  case subn => simpa only [sub_toNat_byte, notBorrowFlag_toNat] using flagThenResult_spec (exec_subnVxVy x y s)

/-- Settles O29: a shift by one is a division or a multiplication by 2, and the flag is the bit that leaves. -/
theorem shiftsIgnoreVyAndKeepTheBitShiftedOut : Obligations.ShiftsIgnoreVyAndKeepTheBitShiftedOut := by
  intro x y s
  refine ⟨decode_of_encode_eq rfl (encodeXY_eq_sum rfl x y), decode_of_encode_eq rfl (encodeXY_eq_sum rfl x y),
    ?shr, ?shl⟩
  case shr =>
    simpa only [shiftRight_one_toNat, shiftedOutRight_toNat] using flagThenResult_spec (exec_shrVx x y s)
  case shl =>
    simpa only [shiftLeft_one_toNat, shiftedOutLeft_toNat] using flagThenResult_spec (exec_shlVx x y s)

/-! ### Random (42_alu.md R154) -/

theorem exec_rndVxNn (x : Reg) (nn : Byte) (s : State) :
    exec (.rndVxNn x nn) s = .next (s.advance.drawn.setReg x (s.randByte &&& nn)) := rfl

theorem keptBut_advance_drawn (s : State) : KeptBut [] [.random] s s.advance.drawn :=
  (keptBut_advance s).trans (keptBut_drawn s.advance)

/-- Settles O30: the draw is masked bit by bit, and a byte put at the head of the feed is the one drawn. -/
theorem randomIsAnyByteMasked : Obligations.RandomIsAnyByteMasked := by
  intro x nn s
  refine ⟨decode_of_encode_eq rfl (encodeXNN_eq_sum rfl x nn),
    ⟨_, exec_rndVxNn x nn s, fun b => ?mask, rfl, rfl, (keptBut_advance_drawn s).setReg x _⟩, fun r => rfl⟩
  case mask => rw [reg_setReg_same, BitVec.getLsbD_and]

/-! ### The index register (43_index_memory.md R170 to R172, 20_memory.md R55) -/

theorem exec_ldINnn (nnn : Addr12) (s : State) :
    exec (.ldINnn nnn) s = .next (s.advance.setI (zextAddr nnn)) := rfl

theorem exec_addIVx (x : Reg) (s : State) :
    exec (.addIVx x) s = .next (s.advance.setI (s.i + zextByte (s.reg x))) := rfl

theorem exec_ldFVx (x : Reg) (s : State) :
    exec (.ldFVx x) s = .next (s.advance.setI (BitVec.ofNat 16 ((s.reg x).toNat * 5))) := rfl

theorem keptBut_advance_setI (s : State) (w : Word) : KeptBut [] [.index] s (s.advance.setI w) :=
  (keptBut_advance s).trans (keptBut_setI s.advance w)

/-- Settles O31: an address and five times a byte fit 16 bits, and word addition is addition mod 65536. -/
theorem indexRegisterWrites : Obligations.IndexRegisterWrites := by
  refine ⟨fun nnn s => ?ldI, fun x s => ⟨?addIWord, ?ldFWord, ?addI, ?ldF⟩⟩
  case ldI =>
    exact ⟨decode_of_encode_eq rfl (encodeA_eq_sum rfl nnn), _, exec_ldINnn nnn s, zextAddr_toNat nnn, rfl,
      keptBut_advance_setI ..⟩
  case addIWord => exact decode_of_encode_eq rfl (encodeX_eq_sum rfl x)
  case ldFWord => exact decode_of_encode_eq rfl (encodeX_eq_sum rfl x)
  case addI =>
    refine ⟨_, exec_addIVx x s, ?_, rfl, keptBut_advance_setI ..⟩
    rw [setI_i, BitVec.toNat_add, zextByte_toNat]
  case ldF =>
    refine ⟨_, exec_ldFVx x s, ?_, rfl, keptBut_advance_setI ..⟩
    have := (s.reg x).isLt
    rw [setI_i, BitVec.toNat_ofNat]
    omega

/-- Settles O32: the mask 0x0FFF is the remainder mod 4096. -/
theorem effectiveAddressIsLow12BitsPlusOffset : Obligations.EffectiveAddressIsLow12BitsPlusOffset := by
  intro s k
  have hmask : (s.i &&& 0x0FFF).toNat = s.i.toNat % 4096 :=
    (BitVec.toNat_and ..).trans (Nat.and_two_pow_sub_one_eq_mod s.i.toNat 12)
  rw [State.ea, hmask]

/-! ### Keys and timers (45_timers_input.md R211 to R216) -/

theorem exec_skpVx (x : Reg) (s : State) : exec (.skpVx x) s =
    .next (s.queried.setPc (if s.isKeyPressed (s.reg x) = true then s.pc + 4 else s.pc + 2)) :=
  congrArg Host.Outcome.next (advance_skipIf_eq s.queried _)

theorem exec_sknpVx (x : Reg) (s : State) : exec (.sknpVx x) s =
    .next (s.queried.setPc (if s.isKeyPressed (s.reg x) = true then s.pc + 2 else s.pc + 4)) := by
  have h := advance_skipIf_eq s.queried (!s.isKeyPressed (s.reg x))
  simp only [Bool.not_eq_true', ← Bool.not_eq_true, ite_not] at h
  exact congrArg Host.Outcome.next h

theorem keptBut_queried_setPc (s : State) (w : Word) : KeptBut [] [.keys] s (s.queried.setPc w) :=
  (keptBut_queried s).trans (keptBut_setPc _ w)

/-- Settles O40: the query is counted, and PC follows its answer. -/
theorem keySkipsFollowAnyAnswer : Obligations.KeySkipsFollowAnyAnswer := by
  intro x s
  exact ⟨decode_of_encode_eq rfl (encodeX_eq_sum rfl x), decode_of_encode_eq rfl (encodeX_eq_sum rfl x),
    ⟨_, exec_skpVx x s, setPc_pc .., rfl, keptBut_queried_setPc ..⟩,
    ⟨_, exec_sknpVx x s, setPc_pc .., rfl, keptBut_queried_setPc ..⟩, fun _ _ => rfl⟩

theorem exec_ldVxDt (x : Reg) (s : State) : exec (.ldVxDt x) s = .next (s.advance.setReg x s.dt) := rfl

theorem exec_ldDtVx (x : Reg) (s : State) : exec (.ldDtVx x) s = .next (s.advance.setDt (s.reg x)) := rfl

theorem exec_ldStVx (x : Reg) (s : State) : exec (.ldStVx x) s = .next (s.advance.setSt (s.reg x)) := rfl

theorem exec_ldVxK (x : Reg) (s : State) : exec (.ldVxK x) s = .next (s.advance.setExec (.awaitingKey x)) := rfl

theorem keptBut_advance_setDt (s : State) (b : Byte) : KeptBut [] [.delayTimer] s (s.advance.setDt b) :=
  (keptBut_advance s).trans (keptBut_setDt s.advance b)

theorem keptBut_advance_setSt (s : State) (b : Byte) : KeptBut [] [.soundTimer] s (s.advance.setSt b) :=
  (keptBut_advance s).trans (keptBut_setSt s.advance b)

theorem keptBut_advance_setExec (s : State) (e : ExecState) : KeptBut [] [.exec] s (s.advance.setExec e) :=
  (keptBut_advance s).trans (keptBut_setExec s.advance e)

/-- Settles O41: each of the three writes one register or timer. -/
theorem timerAccessCopies : Obligations.TimerAccessCopies := by
  intro x s
  exact ⟨decode_of_encode_eq rfl (encodeX_eq_sum rfl x), decode_of_encode_eq rfl (encodeX_eq_sum rfl x),
    decode_of_encode_eq rfl (encodeX_eq_sum rfl x),
    ⟨_, exec_ldVxDt x s, reg_setReg_same .., rfl, keptBut_advance_setReg ..⟩,
    ⟨_, exec_ldDtVx x s, setDt_dt .., rfl, keptBut_advance_setDt ..⟩,
    ⟨_, exec_ldStVx x s, setSt_st .., rfl, keptBut_advance_setSt ..⟩⟩

/-- A burst goes on in RUNNING alone. -/
theorem burstGoesOn_eq_false {s : State} (h : s.execState ≠ .running) (done : Nat) : s.burstGoesOn done = false := by
  simp [State.burstGoesOn, h]

/-- Settles O42: EXEC is written and V[x] is not, and no burst goes on outside RUNNING. -/
theorem waitForKeySuspendsAndEndsBurst : Obligations.WaitForKeySuspendsAndEndsBurst := by
  intro x s
  exact ⟨decode_of_encode_eq rfl (encodeX_eq_sum rfl x), _, exec_ldVxK x s, setExec_execState .., rfl,
    burstGoesOn_eq_false (by simp), keptBut_advance_setExec ..⟩

end Sys2Proof.Machine
end

section
/-! The instructions that move several bytes (43_index_memory.md R173 to R176): their checks in ascending order, then
what they store or load; and the fetch of a word just stored (20_memory.md R62). -/

namespace Sys2Proof.Machine

/-! ### The checks (R53, R54, R59) -/

theorem ea_eq (s : State) (k : Nat) : s.ea k = s.ea 0 + k := rfl

/-- `Unwritable` says that the check of MemWrite fails (R54). -/
theorem canWrite_eq_false_iff {s : State} {a : Nat} : s.canWrite a = false ↔ Unwritable s a := by
  rw [← Bool.not_eq_true, canWrite_eq_true, Unwritable]
  grind

theorem canWrite_eq_true_iff {s : State} {a : Nat} : s.canWrite a = true ↔ ¬ Unwritable s a := by
  rw [← canWrite_eq_false_iff, Bool.not_eq_false]

theorem badWrite_of_writable {s : State} {n : Nat} (h : ∀ k, k < n → ¬ Unwritable s (s.ea k)) :
    s.badWrite n = none :=
  firstFailing_eq_none.mpr fun k hk => canWrite_eq_true_iff.mpr (h k hk)

/-- The address reported is the first one refused (R59). -/
theorem badWrite_of_unwritable {s : State} {n k : Nat} (hk : k < n) (hbad : Unwritable s (s.ea k))
    (hgood : ∀ j, j < k → ¬ Unwritable s (s.ea j)) : s.badWrite n = some (s.ea k) :=
  firstFailing_eq_some.mpr
    ⟨k, hk, ea_eq s k, canWrite_eq_false_iff.mpr hbad, fun j hj => canWrite_eq_true_iff.mpr (hgood j hj)⟩

/-- The address reported is the first one above 0xFFF (R53, R59). -/
theorem badRead_of_outside {s : State} {n k : Nat} (hk : k < n) (hbad : 0xFFF < s.ea k)
    (hgood : ∀ j, j < k → s.ea j ≤ 0xFFF) : s.badRead n = some (s.ea k) :=
  firstFailing_eq_some.mpr
    ⟨k, hk, ea_eq s k, by simpa [State.canRead] using hbad, fun j hj => canRead_eq_true.mpr (hgood j hj)⟩

/-! ### Stores (R173, R174) -/

theorem exec_ldBVx_ok {s : State} (h : s.badWrite 3 = none) (x : Reg) :
    exec (.ldBVx x) s = .next (s.advance.storeBytes (s.ea 0) (bcdDigits (s.reg x))) := by
  simp only [exec, execLdBVx, h]

theorem exec_ldBVx_fault {s : State} {a : Nat} (h : s.badWrite 3 = some a) (x : Reg) :
    exec (.ldBVx x) s = .next (haltedAt s .addressError (some (encode (.ldBVx x))) (some a)) := by
  simp only [exec, execLdBVx, h, raise_eq, haltedAt]

theorem exec_ldMemIVx_ok {s : State} {x : Reg} (h : s.badWrite (x.val + 1) = none) :
    exec (.ldMemIVx x) s = .next (s.advance.storeBytes (s.ea 0) (s.regBytes x)) := by
  simp only [exec, execLdMemIVx, h]

theorem exec_ldMemIVx_fault {s : State} {x : Reg} {a : Nat} (h : s.badWrite (x.val + 1) = some a) :
    exec (.ldMemIVx x) s = .next (haltedAt s .addressError (some (encode (.ldMemIVx x))) (some a)) := by
  simp only [exec, execLdMemIVx, h, raise_eq, haltedAt]

theorem keptBut_advance_storeBytes (s : State) (base : Nat) (bs : List Byte) :
    KeptBut [] [.memory] s (s.advance.storeBytes base bs) :=
  (keptBut_advance s).trans (keptBut_storeBytes s.advance base bs)

/-- Byte `k` of a stored block reads at offset `k`. -/
theorem readByte_storeBytes_offset {bs : List Byte} {k : Nat} {b : Byte} (h : bs[k]? = some b) (s : State)
    (base : Nat) : (s.storeBytes base bs).readByte (base + k) = b := by
  obtain ⟨hk, hb⟩ := List.getElem?_eq_some_iff.mp h
  rw [readByte_storeBytes, dif_pos (by omega), ← hb]
  simp only [Nat.add_sub_cancel_left]

theorem memKeptOutside_storeBytes (s : State) (base : Nat) (bs : List Byte) :
    MemKeptOutside base bs.length s (s.advance.storeBytes base bs) := fun a ha => by
  rw [readByte_storeBytes, dif_neg ha]
  rfl

/-- A decimal digit fits a byte. -/
theorem digit_toNat {n : Nat} (h : n < 256) : (BitVec.ofNat 8 n).toNat = n := by
  rw [BitVec.toNat_ofNat]; omega

/-- Settles O33: the block stored is the three digits, and the fault is at the first address refused. -/
theorem storeDecimalDigits : Obligations.StoreDecimalDigits := by
  intro x s
  have hword : encode (.ldBVx x) = BitVec.ofNat 16 (0xF033 + x.val * 0x100) := encodeX_eq_sum rfl x
  refine ⟨decode_of_encode_eq rfl hword, fun h => ?stored, fun k hk hbad hgood => ?fault⟩
  case stored =>
    have hb := (s.reg x).isLt
    have hdigit : ∀ k d, (bcdDigits (s.reg x))[k]? = some d →
        (s.advance.storeBytes (s.ea 0) (bcdDigits (s.reg x))).readByte (s.ea k) = d :=
      fun k d hd => readByte_storeBytes_offset hd s.advance (s.ea 0)
    refine ⟨_, exec_ldBVx_ok (badWrite_of_writable h) x, ?_, ?_, ?_,
      memKeptOutside_storeBytes s _ (bcdDigits (s.reg x)), storeBytes_pc .., keptBut_advance_storeBytes ..⟩
    · rw [hdigit 0 _ rfl, digit_toNat (by omega)]
    · rw [hdigit 1 _ rfl, digit_toNat (by omega)]
    · rw [hdigit 2 _ rfl, digit_toNat (by omega)]
  case fault => rw [exec_ldBVx_fault (badWrite_of_unwritable hk hbad hgood), hword]

/-- Settles O34: the block stored is V0..Vx, and the fault is at the first address refused. -/
theorem storeRegisterBlock : Obligations.StoreRegisterBlock := by
  intro x s
  have hword : encode (.ldMemIVx x) = BitVec.ofNat 16 (0xF055 + x.val * 0x100) := encodeX_eq_sum rfl x
  refine ⟨decode_of_encode_eq rfl hword, fun h => ?stored, fun k hk hbad hgood => ?fault⟩
  case stored =>
    refine ⟨_, exec_ldMemIVx_ok (badWrite_of_writable fun k hk => h k (by omega)), fun k hk => ?_, ?_,
      storeBytes_pc .., keptBut_advance_storeBytes ..⟩
    · exact readByte_storeBytes_offset (regBytes_getElem? s hk) s.advance (s.ea 0)
    · exact regBytes_length s x ▸ memKeptOutside_storeBytes s _ _
  case fault => rw [exec_ldMemIVx_fault (badWrite_of_unwritable (by omega) hbad hgood), hword]

/-! ### Loads (R175) -/

theorem exec_ldVxMemI_ok {s : State} {x : Reg} (h : s.badRead (x.val + 1) = none) :
    exec (.ldVxMemI x) s = .next (s.advance.loadRegs (regsUpTo x)) := by
  simp only [exec, execLdVxMemI, h]

theorem exec_ldVxMemI_fault {s : State} {x : Reg} {a : Nat} (h : s.badRead (x.val + 1) = some a) :
    exec (.ldVxMemI x) s = .next (haltedAt s .addressError (some (encode (.ldVxMemI x))) (some a)) := by
  simp only [exec, execLdVxMemI, h, raise_eq, haltedAt]

theorem keptBut_advance_loadRegs (s : State) (ks : List Reg) : KeptBut ks [] s (s.advance.loadRegs ks) :=
  (keptBut_advance s).trans (keptBut_loadRegs s.advance ks)

/-- A wider frame is a weaker one. -/
theorem KeptBut.mono_regs {ks ks' : List Reg} {ps : List Part} {s t : State} (h : KeptBut ks ps s t)
    (hks : ∀ k ∈ ks, k ∈ ks') : KeptBut ks' ps s t where
  regs k hk := h.regs k fun hmem => hk (hks k hmem)
  parts := h.parts
  cfg := h.cfg
  phase := h.phase
  events := h.events

theorem mem_allRegs : ∀ k : Reg, k ∈ allRegs := by decide

/-- Settles O35: the registers loaded are V0..Vx, and the fault is at the first address outside memory. -/
theorem loadRegisterBlock : Obligations.LoadRegisterBlock := by
  intro x s
  have hword : encode (.ldVxMemI x) = BitVec.ofNat 16 (0xF065 + x.val * 0x100) := encodeX_eq_sum rfl x
  refine ⟨decode_of_encode_eq rfl hword, fun h => ?loaded, fun k hk hbad hgood => ?fault⟩
  case loaded =>
    rw [ea_eq] at h
    refine ⟨_, exec_ldVxMemI_ok (badRead_eq_none.mpr (by omega)), fun k hk => ?_, fun k hk => ?_, loadRegs_pc ..,
      (keptBut_advance_loadRegs s _).mono_regs fun k _ => mem_allRegs k⟩
    · exact (loadRegs_reg ..).trans (if_pos (mem_regsUpTo.mpr hk))
    · exact (loadRegs_reg ..).trans (if_neg (mt mem_regsUpTo.mp (not_le.mpr hk)))
  case fault => rw [exec_ldVxMemI_fault (badRead_of_outside (by omega) hbad hgood), hword]

/-! ### A fetch after a store (R62) -/

/-- Settles O36: both bytes of the fetch are bytes of the block just stored. -/
theorem fetchSeesTheWordJustStored : Obligations.FetchSeesTheWordJustStored := by
  intro s h0 h1 halign
  have hwritable : ∀ k, k < 2 → ¬ Unwritable s (s.ea k) := by
    intro k hk
    interval_cases k
    · exact h0
    · exact h1
  refine ⟨_, exec_ldMemIVx_ok (x := 1) (badWrite_of_writable hwritable), ?_⟩
  have hlast : s.ea 0 + 1 ≤ 0xFFF := (canWrite_eq_true.mp (canWrite_eq_true_iff.mpr h1)).1
  have hpc : (BitVec.ofNat 16 (s.ea 0)).toNat = s.ea 0 := by rw [BitVec.toNat_ofNat]; omega
  have hbyte : ∀ k : Reg, k ≤ 1 →
      (s.advance.storeBytes (s.ea 0) (s.regBytes 1)).readByte (s.ea 0 + k.val) = s.reg k :=
    fun k hk => readByte_storeBytes_offset (regBytes_getElem? s hk) s.advance (s.ea 0)
  refine fetch_eq_ok.mpr ⟨?aligned, ?inside, ?word⟩
  case aligned =>
    simp only [State.oddPcFaults, setPc_cfg, storeBytes_cfg, advance_eq, setPc_pc, hpc]
    rcases halign with h | h <;> simp [h]
  case inside => rw [setPc_pc, hpc]; exact hlast
  case word =>
    rw [setPc_pc, hpc, setPc_readByte, setPc_readByte]
    have hb0 := hbyte 0 (by decide)
    have hb1 := hbyte 1 (by decide)
    rw [Fin.val_zero, Nat.add_zero] at hb0
    rw [hb0, show s.ea 0 + 1 = s.ea 0 + (1 : Reg).val from rfl, hb1]
    rfl

end Sys2Proof.Machine
end

section
/-! Sprite draw (44_display.md R192, R195, R196): the calls of a draw counted pixel by pixel, what they leave in the
framebuffer and answer, and the draw made twice. -/

namespace Sys2Proof.Machine

/-! ### Calls on a pixel -/

/-- How many points of a list name the pixel `q`. -/
def hitsOn (cfg : Config) (q : Nat × Nat) (ps : List (Nat × Nat)) : Nat := ps.countP fun p => wrapPixel cfg p == q

/-- The plot of a list reports a collision on the pixel `q`: it is hit, and was set before or is hit again. -/
def CollidesOn (s : State) (ps : List (Nat × Nat)) (q : Nat × Nat) : Prop :=
  1 ≤ hitsOn s.cfg q ps ∧ (q ∈ s.fb ∨ 2 ≤ hitsOn s.cfg q ps)

theorem hitsOn_cons (cfg : Config) (q p : Nat × Nat) (ps : List (Nat × Nat)) :
    hitsOn cfg q (p :: ps) = hitsOn cfg q ps + if wrapPixel cfg p = q then 1 else 0 := by
  simp only [hitsOn, List.countP_cons, beq_iff_eq]

theorem hitsOn_append (cfg : Config) (q : Nat × Nat) (ps ps' : List (Nat × Nat)) :
    hitsOn cfg q (ps ++ ps') = hitsOn cfg q ps + hitsOn cfg q ps' := List.countP_append

/-- A pixel is inverted once for each point that names it (R192). -/
theorem mem_plot_fb (ps : List (Nat × Nat)) (s : State) (q : Nat × Nat) :
    q ∈ (s.plot ps).1.fb ↔ (q ∈ s.fb ↔ hitsOn s.cfg q ps % 2 = 0) := by
  induction ps generalizing s with
  | nil => simp [State.plot, hitsOn]
  | cons p ps ih =>
    have hcfg : (s.setPixel p.1 p.2).1.cfg = s.cfg := rfl
    rw [State.plot, ih, setPixel_fb, mem_toggle, hcfg, hitsOn_cons]
    by_cases hq : q = wrapPixel s.cfg p
    · have hodd : (hitsOn s.cfg q ps + 1) % 2 = 0 ↔ ¬ hitsOn s.cfg q ps % 2 = 0 := by omega
      rw [if_pos hq, if_pos hq.symm, hodd, ← hq]
      tauto
    · rw [if_neg hq, if_neg (Ne.symm hq), Nat.add_zero]

/-- Some call answers true exactly when some pixel collides: the pixel of a call is set at that call if it was set
before, or if an earlier call of the list set it (R195). -/
theorem plot_snd_eq_true (ps : List (Nat × Nat)) (s : State) :
    (s.plot ps).2 = true ↔ ∃ q, CollidesOn s ps q := by
  induction ps generalizing s with
  | nil => simp [State.plot, CollidesOn, hitsOn]
  | cons p ps ih =>
    have hcfg : (s.setPixel p.1 p.2).1.cfg = s.cfg := rfl
    have hfirst : (s.setPixel p.1 p.2).2 = true ↔ wrapPixel s.cfg p ∈ s.fb := decide_eq_true_iff
    simp only [State.plot, Bool.or_eq_true, hfirst, ih, CollidesOn, setPixel_fb, mem_toggle, hcfg, hitsOn_cons]
    constructor
    · rintro (hset | ⟨q, hhit, hq⟩)
      · exact ⟨wrapPixel s.cfg p, by simp, .inl hset⟩
      · refine ⟨q, by omega, ?_⟩
        by_cases hqp : q = wrapPixel s.cfg p
        · exact .inr (by simp [← hqp, hhit])
        · simpa [hqp, Ne.symm hqp] using hq
    · rintro ⟨q, hhit, hq⟩
      by_cases hqp : q = wrapPixel s.cfg p
      · by_cases hset : wrapPixel s.cfg p ∈ s.fb
        · exact .inl hset
        · refine .inr ⟨q, ?_, .inl ?_⟩
          · rcases hq with hq | hq
            · exact absurd (hqp ▸ hq) hset
            · have htwice : 2 ≤ hitsOn s.cfg q ps + 1 := by simpa only [← hqp, if_true] using hq
              omega
          · simpa [hqp] using hset
      · exact .inr ⟨q, by simpa [Ne.symm hqp] using hhit, by simpa [hqp, Ne.symm hqp] using hq⟩

/-! ### The points of a sprite -/

/-- Bit `7 - c` of a row is its column `c` (R196). -/
theorem spriteBit_eq_getLsbD (row : Byte) (c : Nat) : spriteBit row c = row.getLsbD (7 - c) := by
  rw [spriteBit, BitVec.getLsbD, Nat.testBit_eq_decide_div_mod_eq]

theorem hitsOn_spriteRowPoints (cfg : Config) (x y px py : Nat) (row : Byte) :
    hitsOn cfg (px, py) (spriteRowPoints x y row) = (List.range 8).countP fun c =>
      row.getLsbD (7 - c) && (x + c) % cfg.displayW == px && y % cfg.displayH == py := by
  rw [hitsOn, spriteRowPoints, List.countP_map, List.countP_filter]
  refine List.countP_congr fun c _ => ?_
  simp only [spriteBit_eq_getLsbD, Function.comp, wrapPixel, Bool.and_eq_true, beq_iff_eq, Prod.mk.injEq]
  tauto

/-- The points of a sprite, row by row, the row `r` drawn at `y + r` (R195). -/
theorem hitsOn_spritePoints (cfg : Config) (q : Nat × Nat) (x y n : Nat) (row : Nat → Byte) :
    hitsOn cfg q (spritePoints x y ((List.range n).map row)) =
      ((List.range n).map fun r => hitsOn cfg q (spriteRowPoints x (y + r) (row r))).sum := by
  induction n generalizing y row with
  | zero => rfl
  | succ n ih =>
    simp only [List.range_succ_eq_map, List.map_cons, List.map_map, spritePoints, hitsOn_append, ih, List.sum_cons,
      Nat.add_zero, Function.comp_def, Nat.succ_eq_add_one, Nat.add_assoc, Nat.add_comm 1]

/-- The points DRW plots (R195). -/
def drawPoints (s : State) (x y : Reg) (n : Nat) : List (Nat × Nat) :=
  spritePoints (s.reg x).toNat (s.reg y).toNat (s.spriteRows n)

/-- The statement's count of hits is the count of the points plotted. -/
theorem hitsOn_drawPoints (s : State) (x y : Reg) (n px py : Nat) :
    hitsOn s.cfg (px, py) (drawPoints s x y n) = spriteHits s x y n px py := by
  simp only [drawPoints, State.spriteRows, hitsOn_spritePoints, hitsOn_spriteRowPoints, spriteHits]

/-- A pixel hit lies inside the display. -/
theorem inside_of_hitsOn {cfg : Config} {q : Nat × Nat} {ps : List (Nat × Nat)} (h : 1 ≤ hitsOn cfg q ps) :
    q.1 < cfg.displayW ∧ q.2 < cfg.displayH := by
  obtain ⟨p, -, hp⟩ := List.countP_pos_iff.mp h
  exact beq_iff_eq.mp hp ▸ wrapPixel_inside cfg p

/-! ### What DRW answers -/

/-- The state a draw leaves when its rows lie inside memory. -/
def State.afterDraw (s : State) (x y : Reg) (n : Nat) : State :=
  (s.advance.plot (drawPoints s x y n)).1.setReg vf (collisionFlag (s.advance.plot (drawPoints s x y n)).2)

theorem exec_drwVxVyN_ok {s : State} {n : Nat} (h : s.badRead n = none) (x y : Reg) :
    exec (.drwVxVyN x y n) s = .next (s.afterDraw x y n) := by
  simp only [exec, execDrwVxVyN, h]
  rfl

theorem exec_drwVxVyN_fault {s : State} {n a : Nat} (h : s.badRead n = some a) (x y : Reg) :
    exec (.drwVxVyN x y n) s =
      .next (haltedAt s .addressError (some (encode (.drwVxVyN x y n))) (some a)) := by
  simp only [exec, execDrwVxVyN, h, raise_eq, haltedAt]

theorem keptBut_afterDraw (s : State) (x y : Reg) (n : Nat) :
    KeptBut [15] [.framebuffer, .calls] s (s.afterDraw x y n) :=
  ((keptBut_advance s).trans (keptBut_plot s.advance _)).setReg vf _

theorem mem_afterDraw_fb (s : State) (x y : Reg) (n : Nat) (q : Nat × Nat) :
    q ∈ (s.afterDraw x y n).fb ↔ (q ∈ s.fb ↔ hitsOn s.cfg q (drawPoints s x y n) % 2 = 0) :=
  mem_plot_fb (drawPoints s x y n) s.advance q

theorem afterDraw_vf_of_collides {s : State} {x y : Reg} {n : Nat} {q : Nat × Nat}
    (h : CollidesOn s (drawPoints s x y n) q) : (s.afterDraw x y n).reg 15 = 1 := by
  have hflag : (s.advance.plot (drawPoints s x y n)).2 = true := (plot_snd_eq_true ..).mpr ⟨q, h⟩
  rw [State.afterDraw, hflag]
  exact reg_setReg_same ..

theorem afterDraw_vf_of_not_collides {s : State} {x y : Reg} {n : Nat}
    (h : ∀ q, ¬ CollidesOn s (drawPoints s x y n) q) : (s.afterDraw x y n).reg 15 = 0 := by
  have hflag : (s.advance.plot (drawPoints s x y n)).2 = false := by
    rw [← Bool.not_eq_true, plot_snd_eq_true]
    exact not_exists.mpr h
  rw [State.afterDraw, hflag]
  exact reg_setReg_same ..

theorem collidesOn_drawPoints_iff (s : State) (x y : Reg) (n px py : Nat) :
    CollidesOn s (drawPoints s x y n) (px, py) ↔
      1 ≤ spriteHits s x y n px py ∧ (s.pixel px py = true ∨ 2 ≤ spriteHits s x y n px py) := by
  rw [CollidesOn, hitsOn_drawPoints, State.pixel, decide_eq_true_iff]

/-- Settles O38: parity of the hits gives the pixel, a collision on some pixel gives VF, and the checks come before the
first call. -/
theorem drawTogglesSpriteBitsAndReportsCollision : Obligations.DrawTogglesSpriteBitsAndReportsCollision := by
  intro x y n s hn
  have hword : encode (.drwVxVyN x y n) = BitVec.ofNat 16 (0xD000 + x.val * 0x100 + y.val * 0x10 + n) :=
    encodeXYN_eq_sum rfl x y n
  refine ⟨decode_of_encode_eq (by simp [Instr.wellFormed, hn]) hword, fun h => ?drawn, fun r hr hbad hgood => ?fault⟩
  case drawn =>
    refine ⟨_, exec_drwVxVyN_ok (badRead_eq_none.mpr h) x y, fun px py _ _ => ?pixels, ?collision, ?noCollision,
      plot_pc .., keptBut_afterDraw ..⟩
    case pixels =>
      have hmem := mem_afterDraw_fb s x y n (px, py)
      rw [hitsOn_drawPoints] at hmem
      by_cases hset : (px, py) ∈ s.fb <;> rcases Nat.mod_two_eq_zero_or_one (spriteHits s x y n px py) with h | h <;>
        simp [State.pixel, hmem, hset, h]
    case collision =>
      rintro ⟨px, py, -, -, hcol⟩
      exact afterDraw_vf_of_collides ((collidesOn_drawPoints_iff ..).mpr hcol)
    case noCollision =>
      refine fun hnone => afterDraw_vf_of_not_collides fun q hcol => ?_
      obtain ⟨hW, hH⟩ := inside_of_hitsOn hcol.1
      obtain ⟨hhit, hset⟩ := (collidesOn_drawPoints_iff s x y n q.1 q.2).mp hcol
      obtain ⟨hunset, honce⟩ := hnone q.1 q.2 hW hH hhit
      rcases hset with hset | htwice
      · simp [hunset] at hset
      · omega
  case fault => rw [exec_drwVxVyN_fault (badRead_of_outside hr hbad hgood), hword]

/-! ### The same draw twice -/

theorem afterDraw_fb_wf {s : State} (h : Framebuffer.wf s.cfg s.fb) (x y : Reg) (n : Nat) :
    Framebuffer.wf s.cfg (s.afterDraw x y n).fb := by
  have hplot := plot_fb_wf (drawPoints s x y n) (s := s.advance) h
  exact hplot

/-- A draw changes none of what it reads but the framebuffer, unless VF is a coordinate. -/
theorem drawPoints_afterDraw {s : State} {x y : Reg} (hx : x ≠ 15) (hy : y ≠ 15) (n : Nat) :
    drawPoints (s.afterDraw x y n) x y n = drawPoints s x y n := by
  have hkept := keptBut_afterDraw s x y n
  have hx' : (s.afterDraw x y n).reg x = s.reg x := hkept.regs x (by simpa using hx)
  have hy' : (s.afterDraw x y n).reg y = s.reg y := hkept.regs y (by simpa using hy)
  have hread : ∀ a, (s.afterDraw x y n).readByte a = s.readByte a := hkept.parts .memory (by simp)
  have hi : (s.afterDraw x y n).i = s.i := hkept.parts .index (by simp)
  simp only [drawPoints, State.spriteRows, State.ea, hx', hy', hread, hi]

/-- Settles O39: the second draw makes the same calls, so every pixel is inverted an even number of times in all; from
a clear screen a pixel the first draw set is one it hit, and the second finds it set. -/
theorem drawTwiceRestoresFramebuffer : Obligations.DrawTwiceRestoresFramebuffer := by
  intro x y n s hcanon hx hy hrows
  have hkept := keptBut_afterDraw s x y n
  have hi : (s.afterDraw x y n).i = s.i := hkept.parts .index (by simp)
  have hrows' : (s.afterDraw x y n).ea 0 + n ≤ 0x1000 := by simpa only [State.ea, hi] using hrows
  have hpoints := drawPoints_afterDraw (s := s) hx hy n
  have hcfg : (s.afterDraw x y n).cfg = s.cfg := hkept.cfg
  have hwf := afterDraw_fb_wf hcanon.fb x y n
  refine ⟨_, _, exec_drwVxVyN_ok (badRead_eq_none.mpr hrows) x y, exec_drwVxVyN_ok (badRead_eq_none.mpr hrows') x y,
    ?restored, fun hclear hdrawn => ?collision⟩
  case restored =>
    refine framebuffer_ext (hcfg ▸ afterDraw_fb_wf (hcfg.symm ▸ hwf) x y n) hcanon.fb fun q => ?_
    rw [mem_afterDraw_fb, mem_afterDraw_fb, hpoints, hcfg]
    tauto
  case collision =>
    obtain ⟨q, hq⟩ := List.exists_mem_of_ne_nil _ hdrawn
    refine afterDraw_vf_of_collides (q := q) ⟨?_, .inl hq⟩
    rw [hpoints, hcfg]
    have hodd := (mem_afterDraw_fb s x y n q).mp hq
    have hhit : ¬ hitsOn s.cfg q (drawPoints s x y n) % 2 = 0 := by
      simpa only [hclear, List.not_mem_nil, false_iff] using hodd
    omega

end Sys2Proof.Machine
end

section
/-! What every instruction does, said once: it faults with a legal record and changes EXEC alone, or it completes and
changes what it names as its own. The rules over all instructions follow (10_state.md R20 to R29, 60_exceptions.md
R230 to R234). -/

namespace Sys2Proof.Machine

/-! ### The two outcomes -/

/-- `i` ended in a fault at `s`: EXEC alone changed, and the record is legal and has the instruction's address. -/
def Faults (i : Instr) (s t : State) : Prop :=
  canFault i = true ∧ ∃ f : FaultRecord, f.pc = s.pc ∧ f.Legal ∧ t = s.setExec (.halted f)

/-- `i` completed at `s`: registers, parts and PC changed only where `i` writes them. -/
structure Completes (i : Instr) (s t : State) : Prop where
  regs : ∀ k, isDestination i k = false → (k = 15 → writesFlag i = false) → t.reg k = s.reg k
  parts : ∀ p, writesPart i p = false → p.Kept s t
  pc : writesPc i = false → t.pc = s.pc + 2

/-- A frame that leaves open no more than `i` writes. -/
theorem Completes.of_keptBut {i : Instr} {ks : List Reg} {ps : List Part} {s t : State} (h : KeptBut ks ps s t)
    (hks : ∀ k ∈ ks, isDestination i k = true ∨ (k = 15 ∧ writesFlag i = true))
    (hps : ∀ p ∈ ps, writesPart i p = true) (hpc : writesPc i = false → t.pc = s.pc + 2) : Completes i s t where
  regs k hd hf := h.regs k fun hk => by
    rcases hks k hk with hdest | ⟨hvf, hflag⟩
    · simp [hd] at hdest
    · simp [hf hvf] at hflag
  parts p hp := h.parts p fun hmem => by simp [hps p hmem] at hp
  pc := hpc

theorem faults_haltedAt {i : Instr} (s : State) {code : FaultCode} {word : Option Word} {addr : Option Nat}
    (hi : canFault i = true) (hlegal : FaultRecord.Legal ⟨code, s.pc, word, addr⟩) :
    Faults i s (haltedAt s code word addr) :=
  ⟨hi, _, rfl, hlegal, rfl⟩

theorem keptBut_advance_skipIf (s : State) (c : Bool) : KeptBut [] [] s (s.advance.skipIf c) :=
  advance_skipIf_eq s c ▸ keptBut_setPc s _

theorem keptBut_queried_skipIf (s : State) (c : Bool) : KeptBut [] [.keys] s (s.advance.queried.skipIf c) :=
  (keptBut_queried s).trans (keptBut_advance_skipIf s.queried c)

theorem Completes.of_pc {i : Instr} {s t : State} (h : KeptBut [] [] s t) (hpc : writesPc i = false → t.pc = s.pc + 2) :
    Completes i s t :=
  .of_keptBut h nofun nofun hpc

theorem Completes.of_destination {i : Instr} {x : Reg} {s t : State} (h : KeptBut [x] [] s t)
    (hx : isDestination i x = true) (hpc : writesPc i = false → t.pc = s.pc + 2) : Completes i s t :=
  .of_keptBut h (List.forall_mem_singleton.mpr (.inl hx)) nofun hpc

theorem Completes.of_part {i : Instr} {p : Part} {s t : State} (h : KeptBut [] [p] s t) (hp : writesPart i p = true)
    (hpc : writesPc i = false → t.pc = s.pc + 2) : Completes i s t :=
  .of_keptBut h nofun (List.forall_mem_singleton.mpr hp) hpc

/-- Every instruction answers a next state, by a fault or by completing. -/
theorem exec_outcome (i : Instr) (s : State) : ∃ t, exec i s = .next t ∧ (Faults i s t ∨ Completes i s t) := by
  cases i with
  | cls =>
    exact ⟨_, exec_cls s, .inr (.of_keptBut (keptBut_advance_displayClear s) nofun
      (List.forall_mem_cons.mpr ⟨rfl, List.forall_mem_singleton.mpr rfl⟩) fun _ => rfl)⟩
  | ret =>
    cases h : s.stack with
    | nil => exact ⟨_, exec_ret_nil (by simp [State.sp, h]), .inl (faults_haltedAt s rfl ⟨rfl, rfl⟩)⟩
    | cons w ws => exact ⟨_, exec_ret_cons h, .inr (.of_part (keptBut_setStack_setPc s ws w) rfl nofun)⟩
  | callNnn nnn =>
    rcases Nat.lt_or_ge s.sp s.cfg.stackDepth with h | h
    · exact ⟨_, exec_callNnn_free h nnn, .inr (.of_part (keptBut_setStack_setPc ..) rfl nofun)⟩
    · exact ⟨_, exec_callNnn_full h nnn, .inl (faults_haltedAt s rfl ⟨rfl, rfl⟩)⟩
  | jpNnn nnn | jpV0Nnn nnn => exact ⟨_, rfl, .inr (.of_pc (keptBut_setPc s _) nofun)⟩
  | seVxNn x _ | sneVxNn x _ | seVxVy x _ | sneVxVy x _ =>
    exact ⟨_, rfl, .inr (.of_pc (keptBut_advance_skipIf s _) nofun)⟩
  | skpVx x | sknpVx x => exact ⟨_, rfl, .inr (.of_part (keptBut_queried_skipIf s _) rfl nofun)⟩
  | ldVxNn x _ | addVxNn x _ | ldVxVy x _ | orVxVy x _ | andVxVy x _ | xorVxVy x _ | ldVxDt x =>
    exact ⟨_, rfl, .inr (.of_destination (keptBut_advance_setReg s x _) (decide_eq_true rfl) fun _ => rfl)⟩
  | addVxVy x _ | subVxVy x _ | shrVx x _ | subnVxVy x _ | shlVx x _ =>
    exact ⟨_, rfl, .inr (.of_keptBut (keptBut_advance_setFlagThenResult s x _ _)
      (List.forall_mem_cons.mpr ⟨.inl (decide_eq_true rfl), List.forall_mem_singleton.mpr (.inr ⟨rfl, rfl⟩)⟩) nofun fun _ => rfl)⟩
  | rndVxNn x nn =>
    exact ⟨_, rfl, .inr (.of_keptBut ((keptBut_advance_drawn s).setReg x _)
      (List.forall_mem_singleton.mpr (.inl (decide_eq_true rfl))) (List.forall_mem_singleton.mpr rfl) fun _ => rfl)⟩
  | ldINnn _ | addIVx _ | ldFVx _ => exact ⟨_, rfl, .inr (.of_part (keptBut_advance_setI s _) rfl fun _ => rfl)⟩
  | ldDtVx x => exact ⟨_, rfl, .inr (.of_part (keptBut_advance_setDt s _) rfl fun _ => rfl)⟩
  | ldStVx x => exact ⟨_, rfl, .inr (.of_part (keptBut_advance_setSt s _) rfl fun _ => rfl)⟩
  | ldVxK x => exact ⟨_, rfl, .inr (.of_part (keptBut_advance_setExec s _) rfl fun _ => rfl)⟩
  | ldBVx x =>
    cases h : s.badWrite 3 with
    | none =>
      exact ⟨_, exec_ldBVx_ok h x, .inr (.of_part (keptBut_advance_storeBytes s _ _) rfl fun _ => storeBytes_pc ..)⟩
    | some a => exact ⟨_, exec_ldBVx_fault h x, .inl (faults_haltedAt s rfl rfl)⟩
  | ldMemIVx x =>
    cases h : s.badWrite (x.val + 1) with
    | none =>
      exact ⟨_, exec_ldMemIVx_ok h, .inr (.of_part (keptBut_advance_storeBytes s _ _) rfl fun _ => storeBytes_pc ..)⟩
    | some a => exact ⟨_, exec_ldMemIVx_fault h, .inl (faults_haltedAt s rfl rfl)⟩
  | ldVxMemI x =>
    cases h : s.badRead (x.val + 1) with
    | none =>
      exact ⟨_, exec_ldVxMemI_ok h, .inr (.of_keptBut (keptBut_advance_loadRegs s _)
        (fun k hk => .inl (decide_eq_true (mem_regsUpTo.mp hk))) nofun fun _ => loadRegs_pc ..)⟩
    | some a => exact ⟨_, exec_ldVxMemI_fault h, .inl (faults_haltedAt s rfl rfl)⟩
  | drwVxVyN x y n =>
    cases h : s.badRead n with
    | none =>
      exact ⟨_, exec_drwVxVyN_ok h x y, .inr (.of_keptBut (keptBut_afterDraw s x y n)
        (List.forall_mem_singleton.mpr (.inr ⟨rfl, rfl⟩))
        (List.forall_mem_cons.mpr ⟨rfl, List.forall_mem_singleton.mpr rfl⟩) fun _ => plot_pc ..)⟩
    | some a => exact ⟨_, exec_drwVxVyN_fault h x y, .inl (faults_haltedAt s rfl rfl)⟩

/-- Inversion of an instruction: what it answered is one of the two outcomes. -/
theorem exec_cases {i : Instr} {s t : State} (h : exec i s = .next t) : Faults i s t ∨ Completes i s t := by
  obtain ⟨t', h', hcases⟩ := exec_outcome i s
  cases h.symm.trans h'
  exact hcases

theorem Faults.isHalted {i : Instr} {s t : State} (h : Faults i s t) : t.isHalted = true := by
  obtain ⟨-, f, -, -, rfl⟩ := h
  rfl

/-- An instruction that completes leaves EXEC as it was, unless it is the one that waits for a key. -/
theorem Completes.execState {i : Instr} {s t : State} (h : Completes i s t) (ht : exec i s = .next t) :
    t.execState = s.execState ∨ ∃ x, t.execState = .awaitingKey x := by
  cases i with
  | ldVxK x => cases ht; exact .inr ⟨x, rfl⟩
  | _ => exact .inl (h.parts .exec rfl)

theorem Completes.not_isHalted {i : Instr} {s t : State} (h : Completes i s t) (ht : exec i s = .next t)
    (hs : s.execState = .running) : t.isHalted = false := by
  rcases h.execState ht with he | ⟨x, he⟩
  · rw [State.isHalted, he, hs]; rfl
  · rw [State.isHalted, he]; rfl

/-! ### The rules over all instructions -/

/-- Settles O10: an instruction outside the six completes, and each of the six meets its fault in a small state. -/
theorem onlySixInstructionsFaultInExecution : Obligations.OnlySixInstructionsFaultInExecution := by
  refine ⟨fun i s hi hs => ?complete, ?fault⟩
  case complete =>
    obtain ⟨t, ht, ⟨hfault, -⟩ | hcomp⟩ := exec_outcome i s
    · simp [hi] at hfault
    · exact ⟨t, ht, hcomp.not_isHalted ht hs⟩
  case fault =>
    simp only [List.forall_mem_cons]
    exact ⟨⟨State.reset, _, rfl, rfl, rfl⟩, ⟨State.reset.setStack (List.replicate 16 0), _, rfl, rfl, rfl⟩,
      ⟨State.reset.setI 0xFFF, _, rfl, rfl, rfl⟩, ⟨State.reset, _, rfl, rfl, rfl⟩, ⟨State.reset, _, rfl, rfl, rfl⟩,
      ⟨State.reset.setI 0xFFF, _, rfl, rfl, rfl⟩, nofun⟩

/-- Settles O48: a fault changes no register, and a completed instruction changes those it names. -/
theorem registersChangeOnlyAsDestinationOrFlag : Obligations.RegistersChangeOnlyAsDestinationOrFlag := by
  intro i s t k ht hdest hflag
  obtain ⟨-, f, -, -, rfl⟩ | hcomp := exec_cases ht
  · rfl
  · exact hcomp.regs k hdest hflag

/-- Settles O49: an instruction that does not end in HALTED has completed. -/
theorem pcAdvancesByTwoUnlessWritten : Obligations.PcAdvancesByTwoUnlessWritten := by
  intro i s t _ ht hhalt hpc
  rcases exec_cases ht with hfault | hcomp
  · simp [hfault.isHalted] at hhalt
  · exact hcomp.pc hpc

/-- Settles O50: a fault changes EXEC alone, and a completed instruction the parts it writes. -/
theorem eachPartChangesOnlyByItsWriters : Obligations.EachPartChangesOnlyByItsWriters := by
  intro i s t p ht hwrites hexec
  obtain ⟨hfault, f, -, -, rfl⟩ | hcomp := exec_cases ht
  · refine (keptBut_setExec s _).parts p fun hp => ?_
    simp [hexec (List.mem_singleton.mp hp)] at hfault
  · exact hcomp.parts p hwrites

theorem setFb_overwritten {t u : State} {fb : List (Nat × Nat)} (h : u = t.setFb fb) : u.setFb [] = t.setFb [] :=
  h ▸ rfl

/-- Settles O54: block operations commute with a replaced framebuffer, CLS replaces both, and the rest do not look. -/
theorem onlyDrawReadsTheFramebuffer : Obligations.OnlyDrawReadsTheFramebuffer := by
  intro i s fb hi
  cases i with
  | drwVxVyN x y n => exact absurd rfl (hi x y n)
  | ret =>
    cases h : s.stack with
    | nil =>
      have hsp : s.sp = 0 := by simp [State.sp, h]
      exact ⟨_, _, exec_ret_nil hsp, exec_ret_nil (s := s.setFb fb) hsp, rfl⟩
    | cons w ws => exact ⟨_, _, exec_ret_cons h, exec_ret_cons (s := s.setFb fb) h, rfl⟩
  | callNnn nnn =>
    rcases Nat.lt_or_ge s.sp s.cfg.stackDepth with h | h
    · exact ⟨_, _, exec_callNnn_free h nnn, exec_callNnn_free (s := s.setFb fb) h nnn, rfl⟩
    · exact ⟨_, _, exec_callNnn_full h nnn, exec_callNnn_full (s := s.setFb fb) h nnn, rfl⟩
  | ldBVx x =>
    cases h : s.badWrite 3 with
    | none =>
      refine ⟨_, _, exec_ldBVx_ok h x, exec_ldBVx_ok (s := s.setFb fb) h x, ?_⟩
      exact setFb_overwritten (storeBytes_setFb _ s.advance fb _)
    | some a => exact ⟨_, _, exec_ldBVx_fault h x, exec_ldBVx_fault (s := s.setFb fb) h x, rfl⟩
  | ldMemIVx x =>
    cases h : s.badWrite (x.val + 1) with
    | none =>
      refine ⟨_, _, exec_ldMemIVx_ok h, exec_ldMemIVx_ok (s := s.setFb fb) h, ?_⟩
      exact setFb_overwritten (storeBytes_setFb _ s.advance fb _)
    | some a => exact ⟨_, _, exec_ldMemIVx_fault h, exec_ldMemIVx_fault (s := s.setFb fb) h, rfl⟩
  | ldVxMemI x =>
    cases h : s.badRead (x.val + 1) with
    | none =>
      refine ⟨_, _, exec_ldVxMemI_ok h, exec_ldVxMemI_ok (s := s.setFb fb) h, ?_⟩
      exact setFb_overwritten (loadRegs_setFb _ s.advance fb)
    | some a => exact ⟨_, _, exec_ldVxMemI_fault h, exec_ldVxMemI_fault (s := s.setFb fb) h, rfl⟩
  | seVxNn x _ | sneVxNn x _ | seVxVy x _ | sneVxVy x _ =>
    exact ⟨_, _, rfl, rfl, setFb_overwritten (skipIf_setFb s.advance fb _)⟩
  | skpVx x | sknpVx x =>
    exact ⟨_, _, rfl, rfl, setFb_overwritten (skipIf_setFb s.advance.queried fb _)⟩
  | _ => exact ⟨_, _, rfl, rfl, rfl⟩

/-! ### Fetch and the record of a fault (R101, R103, R233) -/

theorem oddPcFaults_eq_true {s : State} (hpolicy : s.cfg.oddPcPolicy = .fault) (hodd : s.pc.toNat % 2 = 1) :
    s.oddPcFaults = true := by
  simp [State.oddPcFaults, hpolicy, hodd]

theorem oddPcFaults_eq_false {s : State} (h : s.cfg.oddPcPolicy = .fetch ∨ s.pc.toNat % 2 = 0) :
    s.oddPcFaults = false := by
  rcases h with h | h <;> simp [State.oddPcFaults, h]

theorem fetch_misaligned {s : State} (h : s.oddPcFaults = true) : s.fetch = .error ⟨.pcAlignment, none, none⟩ := by
  simp only [State.fetch, h, if_true]

theorem fetch_first_outside {s : State} (hodd : s.oddPcFaults = false) (hpc : 0xFFF < s.pc.toNat) :
    s.fetch = .error ⟨.addressError, none, some s.pc.toNat⟩ := by
  have hfirst : s.memRead s.pc.toNat = .error s.pc.toNat := memRead_eq_error.mpr ⟨hpc, rfl⟩
  simp [State.fetch, hodd, hfirst]

theorem fetch_second_outside {s : State} (hodd : s.oddPcFaults = false) (hpc : s.pc.toNat = 0xFFF) :
    s.fetch = .error ⟨.addressError, none, some 0x1000⟩ := by
  have hfirst : s.memRead 0xFFF = .ok (s.readByte 0xFFF) := memRead_eq_ok.mpr ⟨le_refl _, rfl⟩
  have hsecond : s.memRead 0x1000 = .error 0x1000 := memRead_eq_error.mpr ⟨by decide, rfl⟩
  simp [State.fetch, hodd, hpc, hfirst, hsecond]

theorem fetchDecode_of_fetch_eq_error {s : State} {e : FetchFault} (h : s.fetch = .error e) :
    s.fetchDecode = .error e := by
  simp only [State.fetchDecode, h]

/-- What a fetch or a decode raises makes a legal record: a fetch has no word, and only an address error has an
address (R30, R231). -/
theorem fetchDecode_error_legal {s : State} {e : FetchFault} (h : s.fetchDecode = .error e) (pc : Word) :
    FaultRecord.Legal ⟨e.code, pc, e.word, e.addr⟩ := by
  cases hf : s.fetch with
  | ok w =>
    cases hd : decode w with
    | ok i => simp [State.fetchDecode, hf, hd] at h
    | error r =>
      cases h.symm.trans (fetchDecode_of_decode_eq_error hf hd)
      exact ⟨rfl, rfl⟩
  | error e' =>
    cases h.symm.trans (fetchDecode_of_fetch_eq_error hf)
    cases hodd : s.oddPcFaults with
    | true => cases hf.symm.trans (fetch_misaligned hodd); exact ⟨rfl, rfl⟩
    | false =>
      rcases Nat.lt_trichotomy s.pc.toNat 0xFFF with hpc | hpc | hpc
      · cases hf.symm.trans (fetch_eq_ok.mpr ⟨hodd, hpc, rfl⟩)
      · cases hf.symm.trans (fetch_second_outside hodd hpc); exact rfl
      · cases hf.symm.trans (fetch_first_outside hodd hpc); exact rfl

/-- Settles O8: the three failing checks and the word read, in the order of the fetch. -/
theorem fetchChecksInOrderThenReadsBigEndian : Obligations.FetchChecksInOrderThenReadsBigEndian := by
  have hraise : ∀ {s : State} {e : FetchFault}, s.fetch = .error e →
      runInstr s = .next (haltedAt s e.code e.word e.addr) :=
    fun h => runInstr_of_fetchDecode_eq_error (fetchDecode_of_fetch_eq_error h)
  intro s
  refine ⟨fun hpolicy hodd => hraise (fetch_misaligned (oddPcFaults_eq_true hpolicy hodd)), fun h => ?_⟩
  have hodd := oddPcFaults_eq_false h
  exact ⟨fun hpc => hraise (fetch_first_outside hodd hpc), fun hpc => hraise (fetch_second_outside hodd hpc),
    fun hpc => fetch_eq_ok.mpr ⟨hodd, hpc, rfl⟩⟩

/-- One instruction from fetch to commit always answers a next state, and that state is no other than the one before
with a legal record in EXEC, or one an instruction completed in. -/
theorem runInstr_outcome (s : State) : ∃ t, runInstr s = .next t ∧
    ((∃ f : FaultRecord, f.pc = s.pc ∧ f.Legal ∧ t = s.setExec (.halted f)) ∨
      ∃ i, s.fetchDecode = .ok i ∧ exec i s = .next t ∧ Completes i s t) := by
  cases hd : s.fetchDecode with
  | error e =>
    exact ⟨_, runInstr_of_fetchDecode_eq_error hd, .inl ⟨_, rfl, fetchDecode_error_legal hd s.pc, rfl⟩⟩
  | ok i =>
    obtain ⟨t, ht, ⟨-, hfault⟩ | hcomp⟩ := exec_outcome i s
    · exact ⟨t, (runInstr_of_fetchDecode_eq_ok hd).trans ht, .inl hfault⟩
    · exact ⟨t, (runInstr_of_fetchDecode_eq_ok hd).trans ht, .inr ⟨i, rfl, ht, hcomp⟩⟩

/-- Settles O9: a completed instruction does not end in HALTED, so the state is that of a fault. -/
theorem faultingInstructionCommitsNothing : Obligations.FaultingInstructionCommitsNothing := by
  intro s t f hs ht hhalt
  obtain ⟨t', ht', hcases⟩ := runInstr_outcome s
  cases ht.symm.trans ht'
  obtain ⟨g, hpc, hlegal, rfl⟩ | ⟨i, -, hexec, hcomp⟩ := hcases
  · cases hhalt
    exact ⟨rfl, hpc, hlegal⟩
  · have hnot := hcomp.not_isHalted hexec hs
    simp [State.isHalted, hhalt, ExecState.isHalted] at hnot

end Sys2Proof.Machine
end

section
/-! The scheduler and the events (40_engine.md R100 to R109, 45_timers_input.md R217 to R219, 70_reset_and_hazards.md
R261, R262): what each kind of step answers. -/

namespace Sys2Proof.Machine

/-! ### Steps inside a burst (R101 to R107) -/

theorem burstGoesOn_eq_true {s : State} {done : Nat} :
    s.burstGoesOn done = true ↔ done < s.cfg.speed ∧ s.execState = .running := by
  simp [State.burstGoesOn]

/-- A step of a burst that goes on is one instruction and the scheduler's advance. -/
theorem step_instr {s : State} {done : Nat} (hphase : s.phase = .burst done) (hdone : done < s.cfg.speed)
    (hrun : s.execState = .running) : step s = onNext (State.endInstr done) (runInstr s) := by
  rw [step_burst hphase, State.burstStep, if_pos (burstGoesOn_eq_true.mpr ⟨hdone, hrun⟩)]

/-- A step of a burst that is over is the end of the tick. -/
theorem step_endTick {s : State} {done : Nat} (hphase : s.phase = .burst done) (hover : s.burstGoesOn done = false) :
    step s = .next (s.endTick.setPhase .between) := by
  rw [step_burst hphase, State.burstStep, if_neg (by simp [hover])]

theorem endInstr_halted {t : State} (h : t.isHalted = true) (done : Nat) :
    t.endInstr done = t.setPhase .between := by
  unfold State.isHalted at h
  unfold State.endInstr
  split <;> simp_all [ExecState.isHalted]

theorem endInstr_not_halted {t : State} (h : t.isHalted = false) (done : Nat) :
    t.endInstr done = t.setPhase (.burst (done + 1)) := by
  unfold State.isHalted at h
  unfold State.endInstr
  split <;> simp_all [ExecState.isHalted]

theorem fetchDecode_of_word {s : State} {i : Instr} (hodd : s.oddPcFaults = false) (hpc : s.pc.toNat + 1 ≤ 0xFFF)
    (hi : decode (wordOfBytes (s.readByte s.pc.toNat) (s.readByte (s.pc.toNat + 1))) = .ok i) :
    s.fetchDecode = .ok i :=
  fetchDecode_eq_ok.mpr ⟨_, fetch_eq_ok.mpr ⟨hodd, hpc, rfl⟩, hi⟩

/-- Settles O6: the burst goes on, and the fetch passes its checks. -/
theorem stepRunsDecodedInstruction : Obligations.StepRunsDecodedInstruction := by
  intro s done i hphase hdone hrun halign hpc hi
  rw [step_instr hphase hdone hrun,
    runInstr_of_fetchDecode_eq_ok (fetchDecode_of_word (oddPcFaults_eq_false halign) hpc hi)]

/-- Settles O12: the record of a fault is all that changed, and the scheduler goes back between events. -/
theorem faultInBurstEndsTick : Obligations.FaultInBurstEndsTick := by
  intro s u done hphase hdone hrun hu hhalt
  have hstep : step s = .next (u.setPhase .between) := by
    rw [step_instr hphase hdone hrun, hu, onNext, endInstr_halted hhalt]
  obtain ⟨u', hu', ⟨f, -, -, rfl⟩ | ⟨i, -, hexec, hcomp⟩⟩ := runInstr_outcome s
  · cases hu.symm.trans hu'
    exact ⟨_, hstep, rfl, rfl, rfl, rfl, rfl, rfl⟩
  · cases hu.symm.trans hu'
    simp [hcomp.not_isHalted hexec hrun] at hhalt

/-! ### A word placed at PC [log 4] -/

theorem tableBytes_of_word (w : Word) : tableBytes 16 w.toNat = [hiByte w, loByte w] := by
  have hw : tableWord 16 w.toNat = w := by
    rw [tableWord, Nat.mod_eq_of_lt w.isLt, BitVec.ofNat_toNat, BitVec.setWidth_eq]
  rw [tableBytes, hw]

/-- PC is moved to where a fetch passes its checks, unless one passes where it stands. -/
theorem fetchable_canFetch (s : State) : s.fetchable.canFetch = true := by
  unfold State.fetchable
  split
  · assumption
  · simp [State.canFetch, State.oddPcFaults, progBase]

theorem canFetch_eq_true {s : State} : s.canFetch = true ↔ s.oddPcFaults = false ∧ s.pc.toNat + 1 ≤ 0xFFF := by
  simp [State.canFetch]

/-- The fetch reads the word that was placed. -/
theorem fetch_placeAtPc {s : State} (h : s.canFetch = true) (w : Word) :
    (s.placeAtPc [hiByte w, loByte w]).fetch = .ok w := by
  obtain ⟨hodd, hpc⟩ := canFetch_eq_true.mp h
  have hbyte : ∀ k b, [hiByte w, loByte w][k]? = some b →
      (s.placeAtPc [hiByte w, loByte w]).readByte (s.pc.toNat + k) = b :=
    fun k b hb => readByte_storeBytes_offset hb s s.pc.toNat
  have hhi := hbyte 0 _ rfl
  have hlo := hbyte 1 _ rfl
  have hpc' : (s.placeAtPc [hiByte w, loByte w]).pc = s.pc := storeBytes_pc ..
  refine fetch_eq_ok.mpr ⟨?_, hpc' ▸ hpc, ?_⟩
  · simpa only [State.oddPcFaults, State.placeAtPc, storeBytes_pc, storeBytes_cfg] using hodd
  · rw [Nat.add_zero] at hhi
    rw [hpc', hhi, hlo, wordOfBytes_hi_lo]

/-- Settles O7: the state placed is at the start of a burst, and its fetch reads the word. -/
theorem placedWordRunsNext : Obligations.PlacedWordRunsNext := by
  intro s w i hi
  have hplaced : s.withFetchWord 16 w.toNat = s.fetchable.inBurst.placeAtPc [hiByte w, loByte w] := by
    rw [State.withFetchWord, tableBytes_of_word]
  have hfetch : (s.withFetchWord 16 w.toNat).fetch = .ok w := by
    rw [hplaced]
    exact fetch_placeAtPc (fetchable_canFetch s) w
  have hphase : (s.withFetchWord 16 w.toNat).phase = .burst 0 := storeBytes_phase ..
  have hrun : (s.withFetchWord 16 w.toNat).execState = .running := storeBytes_execState ..
  rw [step_instr hphase (Config.speed_pos _) hrun,
    runInstr_of_fetchDecode_eq_ok (fetchDecode_eq_ok.mpr ⟨w, hfetch, hi⟩)]

/-! ### Every step answers -/

theorem step_event {s : State} {e : Event} {es : List Event} (hphase : s.phase = .between) (he : s.events = e :: es) :
    step s = .next ((s.setEvents es).handle e) := by
  rw [step_between hphase, State.eventStep, he]

theorem step_no_event {s : State} (hphase : s.phase = .between) (he : s.events = []) : step s = .next s := by
  rw [step_between hphase, State.eventStep, he]

/-- Settles O46: an instruction answers a next state, and the rest of the scheduler is computation. -/
theorem everyStepAnswersNext : Obligations.EveryStepAnswersNext := by
  intro s
  cases hphase : s.phase with
  | burst done =>
    cases hgo : s.burstGoesOn done with
    | true =>
      obtain ⟨hdone, hrun⟩ := burstGoesOn_eq_true.mp hgo
      obtain ⟨t, ht, -⟩ := runInstr_outcome s
      exact ⟨_, by rw [step_instr hphase hdone hrun, ht, onNext]⟩
    | false => exact ⟨_, step_endTick hphase hgo⟩
  | between =>
    cases he : s.events with
    | nil => exact ⟨s, step_no_event hphase he⟩
    | cons e es => exact ⟨_, step_event hphase he⟩

/-! ### Events -/

theorem beginTick_running {s : State} (h : s.execState = .running) : s.beginTick = s.setPhase (.burst 0) := by
  simp only [State.beginTick, h]

theorem beginTick_awaiting {s : State} {x : Reg} (h : s.execState = .awaitingKey x) :
    s.beginTick = s.setPhase (.burst 0) := by
  simp only [State.beginTick, h]

theorem beginTick_stopped {s : State} (h : s.execState = .idle ∨ s.isHalted = true) : s.beginTick = s := by
  unfold State.isHalted at h
  unfold State.beginTick
  split <;> simp_all [ExecState.isHalted]

theorem keyEvent_awaiting {s : State} {x : Reg} (h : s.execState = .awaitingKey x) (k : Fin 16) :
    s.keyEvent k = (s.setReg x (BitVec.ofNat 8 k.val)).setExec .running := by
  simp only [State.keyEvent, h]

theorem keyEvent_other {s : State} (h : ∀ x, s.execState ≠ .awaitingKey x) (k : Fin 16) : s.keyEvent k = s := by
  unfold State.keyEvent
  split
  · exact absurd ‹_› (h _)
  all_goals rfl

theorem loadEvent_accepted {bytes : List Byte} (h : loadAccepted bytes = true) (s : State) :
    s.loadEvent bytes = s.resetWith bytes := by
  rw [State.loadEvent, if_pos h]

theorem loadEvent_rejected {bytes : List Byte} (h : loadAccepted bytes = false) (s : State) :
    s.loadEvent bytes = s.addCall .loadError := by
  rw [State.loadEvent, if_neg (by simp [h])]

/-- Settles O13: a tick does not begin in IDLE or HALTED. -/
theorem tickWhileStoppedHasNoEffect : Obligations.TickWhileStoppedHasNoEffect := by
  intro s es hphase he hstopped
  rw [step_event hphase he, State.handle, beginTick_stopped (s := s.setEvents es) hstopped]

theorem keyCode_toNat (k : Fin 16) : (BitVec.ofNat 8 k.val : Byte).toNat = k.val :=
  digit_toNat (by have := k.isLt; omega)

/-- Settles O16: only the wait looks at the key. -/
theorem keyEventResolvesOnlyTheWait : Obligations.KeyEventResolvesOnlyTheWait := by
  intro s k es hphase he
  refine ⟨fun x hx => ?waiting, fun hother => ?other⟩
  case waiting =>
    refine ⟨_, step_event hphase he, ?_⟩
    rw [State.handle, keyEvent_awaiting (s := s.setEvents es) hx]
    refine ⟨?_, rfl, rfl, ?_⟩
    · rw [setExec_reg, reg_setReg_same, keyCode_toNat]
    · have hreg : KeptBut [x] [] (s.setEvents es) ((s.setEvents es).setReg x (BitVec.ofNat 8 k.val)) :=
        (keptBut_setPc (s.setEvents es) s.pc).setReg x _
      exact hreg.trans (keptBut_setExec _ _)
  case other => rw [step_event hphase he, State.handle, keyEvent_other (s := s.setEvents es) hother]

/-- Settles O43: the length decides whether a load is accepted. -/
theorem rejectedLoadChangesNothing : Obligations.RejectedLoadChangesNothing := by
  intro s bytes es hphase he hlen
  have hrej : loadAccepted bytes = false := by
    rw [← Bool.not_eq_true, loadAccepted_iff]
    omega
  rw [step_event hphase he, State.handle, loadEvent_rejected hrej]

/-! ### An accepted load (R262) -/

theorem resetByte_glyph (cfg : Config) {d r : Nat} (hd : d < 16) (hr : r < 5) :
    resetByte cfg (d * 5 + r) = (cfg.glyphs[d])[r] := by
  have hlt : d * 5 + r < 80 := by omega
  have hdiv : (d * 5 + r) / 5 = d := by omega
  have hmod : (d * 5 + r) % 5 = r := by omega
  simp only [resetByte, hlt, dif_pos, hdiv, hmod]

theorem resetByte_zero (cfg : Config) {a : Nat} (h : 80 ≤ a) : resetByte cfg a = 0 := by
  rw [resetByte, dif_neg (by omega)]

theorem replicate_zero_reg (s : State) (h : s.v = Vector.replicate 16 0) (k : Reg) : s.reg k = 0 := by
  rw [State.reg]
  simp [h]

/-- Settles O44: the byte of every address after the reset, and each field as the reset writes it. -/
theorem acceptedLoadResetsTheMachine : Obligations.AcceptedLoadResetsTheMachine := by
  intro s bytes es hphase he hmin hmax
  have hacc : loadAccepted bytes = true := loadAccepted_iff.mpr ⟨hmin, hmax⟩
  have hstep : step s = .next ((s.setEvents es).resetWith bytes) := by
    rw [step_event hphase he, State.handle, loadEvent_accepted hacc]
  have hread := readByte_resetWith (s.setEvents es) bytes
  have heq := resetWith_eq (s.setEvents es) bytes
  generalize (s.setEvents es).resetWith bytes = t at hstep hread heq
  refine ⟨t, hstep, fun d r hd hr => ?glyph, fun a hlo hhi => ?reserved, fun j hj => ?program, fun a ha => ?above,
    ?fields⟩
  case glyph => rw [hread, dif_neg (by omega), resetByte_glyph _ hd hr]; rfl
  case reserved => rw [hread, dif_neg (by omega), resetByte_zero _ hlo]
  case program =>
    rw [hread, dif_pos (by omega)]
    simp only [Nat.add_sub_cancel_left]
  case above => rw [hread, dif_neg (by omega), resetByte_zero _ (by omega)]
  case fields =>
    rw [heq]
    exact ⟨replicate_zero_reg _ rfl, rfl, rfl, rfl, rfl, rfl, fun _ _ => rfl, rfl, rfl, rfl, rfl, rfl, rfl⟩

/-! ### The end of a tick (R218, R219) -/

theorem endTick_running {s : State} (h : s.execState = .running) :
    s.endTick = s.timerCountdown.audioSignal.displayRender := by
  simp only [State.endTick, h]

theorem endTick_awaiting {s : State} {x : Reg} (h : s.execState = .awaitingKey x) :
    s.endTick = s.audioSignal.displayRender := by
  simp only [State.endTick, h]

theorem endTick_stopped {s : State} (h : s.execState = .idle ∨ s.isHalted = true) : s.endTick = s := by
  unfold State.isHalted at h
  unfold State.endTick
  split <;> simp_all [ExecState.isHalted]

/-- The signal follows ST, and only AUDIO and the calls are written (R219). -/
theorem audioSignal_eq (s : State) : s.audioSignal =
    (s.addCall (if s.st = 0 then .audioStop else .audioPlay 440)).setAudio
      (if s.st = 0 then .stopped else .playing) := by
  unfold State.audioSignal
  split <;> rfl

/-- The same, with ST read as a number. -/
theorem audioSignal_eq_toNat (s : State) : s.audioSignal =
    (s.addCall (if 0 < s.st.toNat then .audioPlay 440 else .audioStop)).setAudio
      (if 0 < s.st.toNat then .playing else .stopped) := by
  have hst : s.st = 0 ↔ ¬ 0 < s.st.toNat := by
    rw [Nat.not_lt, Nat.le_zero, BitVec.toNat_eq]; rfl
  simp only [audioSignal_eq, hst, ite_not]

/-- One more step of a run. -/
theorem core_run_succ {s t : State} (h : step s = .next t) (n : Nat) :
    Sys2Proof.core.run (n + 1) s = Sys2Proof.core.run n t := by
  have h' : Sys2Proof.core.step s = .next t := h
  simp only [Host.Core.run, h']

/-- Settles O14: the burst of such a tick is over before its first instruction. -/
theorem tickWhileAwaitingKeyOnlySignals : Obligations.TickWhileAwaitingKeyOnlySignals := by
  intro s es x hphase he hx
  have hbegin : step s = .next ((s.setEvents es).setPhase (.burst 0)) := by
    rw [step_event hphase he, State.handle, beginTick_awaiting (s := s.setEvents es) hx]
  have hwait : ((s.setEvents es).setPhase (.burst 0)).execState = .awaitingKey x := hx
  have hover := burstGoesOn_eq_false (s := (s.setEvents es).setPhase (.burst 0)) (by simp [hx]) 0
  refine ⟨_, (core_run_succ hbegin 1).trans (core_run_succ (step_endTick rfl hover) 0), ?_⟩
  rw [endTick_awaiting hwait, State.displayRender, audioSignal_eq]
  by_cases hst : s.st = 0#8 <;> simp [hx, hst]

/-- Settles O15: RUNNING counts down and AWAITING_KEY does not; then both signal by the ST they have. -/
theorem endOfTickCountsDownThenSignals : Obligations.EndOfTickCountsDownThenSignals := by
  intro s done hphase hover
  have hgo : s.burstGoesOn done = false := by
    rw [← Bool.not_eq_true, burstGoesOn_eq_true]
    rintro ⟨hdone, hrun⟩
    rcases hover with ⟨-, hover⟩ | ⟨x, hx⟩
    · omega
    · simp [hrun] at hx
  refine ⟨_, step_endTick hphase hgo, rfl, ?_⟩
  rcases hover with ⟨hrun, -⟩ | ⟨x, hx⟩
  · rw [endTick_running hrun, State.displayRender, audioSignal_eq_toNat, State.timerCountdown]
    simp [hrun, countDown_toNat]
  · rw [endTick_awaiting hx, State.displayRender, audioSignal_eq_toNat]
    by_cases hst : 0 < s.st.toNat <;> simp [hx, hst]

end Sys2Proof.Machine
end

section
/-! The rules over all steps (45_timers_input.md R218, 60_exceptions.md R235, R242, 10_state.md R33): each from the
inversion of a step, of an instruction and of an event. -/

namespace Sys2Proof.Machine

/-! ### What an event can do -/

/-- The start of a tick moves the scheduler at most (R105, R108). -/
theorem beginTick_eq (s : State) : ∃ p, s.beginTick = s.setPhase p := by
  unfold State.beginTick
  split
  · exact ⟨_, rfl⟩
  · exact ⟨_, rfl⟩
  · exact ⟨s.phase, rfl⟩
  · exact ⟨s.phase, rfl⟩

/-- A key event resolves a wait, or does nothing (R217). -/
theorem keyEvent_cases (s : State) (k : Fin 16) :
    (∃ x, s.execState = .awaitingKey x ∧ s.keyEvent k = (s.setReg x (BitVec.ofNat 8 k.val)).setExec .running) ∨
      s.keyEvent k = s := by
  by_cases h : ∃ x, s.execState = .awaitingKey x
  · obtain ⟨x, hx⟩ := h
    exact .inl ⟨x, hx, keyEvent_awaiting hx k⟩
  · exact .inr (keyEvent_other (not_exists.mp h) k)

/-- A load resets the machine, or makes one call (R261). -/
theorem loadEvent_cases (s : State) (bytes : List Byte) :
    (loadAccepted bytes = true ∧ s.loadEvent bytes = s.resetWith bytes) ∨ s.loadEvent bytes = s.addCall .loadError := by
  cases h : loadAccepted bytes with
  | true => exact .inl ⟨rfl, loadEvent_accepted h s⟩
  | false => exact .inr (loadEvent_rejected h s)

theorem resetWith_execState (s : State) (bytes : List Byte) : (s.resetWith bytes).execState = .running := by
  rw [resetWith_eq]

/-! ### What one instruction keeps -/

/-- One instruction, or the fault of its fetch, leaves the parameters, the scheduler's place and the events alone. -/
theorem runInstr_keeps_scheduler {s t : State} (h : runInstr s = .next t) :
    t.cfg = s.cfg ∧ t.phase = s.phase ∧ t.events = s.events := by
  obtain ⟨e, -, rfl⟩ | ⟨i, -, hexec⟩ := runInstr_cases h
  · exact ⟨rfl, rfl, rfl⟩
  · exact exec_keeps_scheduler hexec

/-- A change of DT or ST by one instruction is made by the instruction that writes it. -/
theorem runInstr_timers {s t : State} (h : runInstr s = .next t) :
    (t.dt = s.dt ∧ t.st = s.st) ∨ ∃ x, s.fetchDecode = .ok (.ldDtVx x) ∨ s.fetchDecode = .ok (.ldStVx x) := by
  obtain ⟨t', h', ⟨f, -, -, rfl⟩ | ⟨i, hi, -, hcomp⟩⟩ := runInstr_outcome s
  · cases h.symm.trans h'
    exact .inl ⟨rfl, rfl⟩
  · cases h.symm.trans h'
    cases i with
    | ldDtVx x => exact .inr ⟨x, .inl hi⟩
    | ldStVx x => exact .inr ⟨x, .inr hi⟩
    | _ => exact .inl ⟨hcomp.parts .delayTimer rfl, hcomp.parts .soundTimer rfl⟩

/-- Outside RUNNING the end of a tick leaves the timers alone (R218). -/
theorem endTick_timers {s : State} (h : s.execState ≠ .running) : s.endTick.dt = s.dt ∧ s.endTick.st = s.st := by
  cases he : s.execState with
  | running => exact absurd he h
  | awaitingKey x =>
    rw [endTick_awaiting he, audioSignal_eq]
    exact ⟨rfl, rfl⟩
  | halted f => rw [endTick_stopped (.inr (by rw [State.isHalted, he]; rfl))]; exact ⟨rfl, rfl⟩
  | idle => rw [endTick_stopped (.inl he)]; exact ⟨rfl, rfl⟩

theorem endTick_cfg (s : State) : s.endTick.cfg = s.cfg := by
  obtain ⟨dt, st, a, c, h⟩ := endTick_eq s
  rw [h]

theorem endTick_execState (s : State) : s.endTick.execState = s.execState := by
  obtain ⟨dt, st, a, c, h⟩ := endTick_eq s
  rw [h]

/-! ### The rules -/

/-- Settles O17: a step that is none of the three leaves both timers alone. -/
theorem timersChangeOnlyByTheirWriters : Obligations.TimersChangeOnlyByTheirWriters := by
  intro s t hstep hne
  have hnot : ¬ (t.dt = s.dt ∧ t.st = s.st) := fun ⟨hdt, hst⟩ => by simp [hdt, hst] at hne
  obtain ⟨done, u, hphase, hgo, hrun, rfl⟩ | ⟨done, hphase, hgo, rfl⟩ | ⟨-, -, rfl⟩ | ⟨e, es, hphase, he, rfl⟩ :=
    step_cases hstep
  · obtain ⟨p, hp⟩ := endInstr_eq done u
    rcases runInstr_timers hrun with hsame | ⟨x, hx⟩
    · exact absurd (by rw [hp]; exact hsame) hnot
    · exact .inl ⟨done, x, hphase, hgo, hx⟩
  · refine .inr (.inl ⟨done, hphase, hgo, ?_⟩)
    by_contra hstopped
    exact hnot (endTick_timers hstopped)
  · exact absurd ⟨rfl, rfl⟩ hnot
  · cases e with
    | tick =>
      obtain ⟨p, hp⟩ := beginTick_eq (s.setEvents es)
      exact absurd (by rw [State.handle, hp]; exact ⟨rfl, rfl⟩) hnot
    | key k =>
      obtain ⟨x, -, hkey⟩ | hkey := keyEvent_cases (s.setEvents es) k <;>
        exact absurd (by rw [State.handle, hkey]; exact ⟨rfl, rfl⟩) hnot
    | load bytes =>
      obtain ⟨hacc, -⟩ | hload := loadEvent_cases (s.setEvents es) bytes
      · exact .inr (.inr ⟨bytes, es, hphase, he, hacc⟩)
      · exact absurd (by rw [State.handle, hload]; exact ⟨rfl, rfl⟩) hnot

theorem handle_cfg (s : State) (e : Event) : (s.handle e).cfg = s.cfg := by
  cases e with
  | tick => obtain ⟨p, hp⟩ := beginTick_eq s; rw [State.handle, hp]; rfl
  | key k => obtain ⟨x, -, hkey⟩ | hkey := keyEvent_cases s k <;> simp [State.handle, hkey]
  | load bytes =>
    obtain ⟨-, hload⟩ | hload := loadEvent_cases s bytes
    · rw [State.handle, hload, resetWith_eq]
    · rw [State.handle, hload]; rfl

/-- Settles O47: neither an instruction, nor the end of a tick, nor an event writes the parameters. -/
theorem noStepChangesTheParameters : Obligations.NoStepChangesTheParameters := by
  intro s t hstep
  obtain ⟨done, u, -, -, hrun, rfl⟩ | ⟨done, -, -, rfl⟩ | ⟨-, -, rfl⟩ | ⟨e, es, -, -, rfl⟩ := step_cases hstep
  · obtain ⟨p, hp⟩ := endInstr_eq done u
    rw [hp]
    exact (runInstr_keeps_scheduler hrun).1
  · exact endTick_cfg s
  · rfl
  · exact handle_cfg (s.setEvents es) e

/-- Settles O51: in HALTED no instruction runs, a tick and a key do nothing, and a rejected load makes a call. -/
theorem haltedIsLeftOnlyByLoad : Obligations.HaltedIsLeftOnlyByLoad := by
  intro s t f hf hstep
  obtain ⟨done, u, -, hgo, -, -⟩ | ⟨done, -, -, rfl⟩ | ⟨-, -, rfl⟩ | ⟨e, es, hphase, he, rfl⟩ := step_cases hstep
  · simp [(burstGoesOn_eq_true.mp hgo).2] at hf
  · exact .inl ((endTick_execState s).trans hf)
  · exact .inl hf
  · cases e with
    | tick =>
      obtain ⟨p, hp⟩ := beginTick_eq (s.setEvents es)
      exact .inl (by rw [State.handle, hp]; exact hf)
    | key k =>
      have hother : ∀ x, (s.setEvents es).execState ≠ .awaitingKey x := by simp [hf]
      exact .inl (by rw [State.handle, keyEvent_other hother]; exact hf)
    | load bytes =>
      obtain ⟨hacc, hload⟩ | hload := loadEvent_cases (s.setEvents es) bytes
      · exact .inr ⟨bytes, es, hphase, he, hacc, by rw [State.handle, hload, resetWith_execState]⟩
      · exact .inl (by rw [State.handle, hload]; exact hf)

/-- Settles O52: in AWAITING_KEY no instruction runs, the end of a tick keeps EXEC, and of the events only a key and an
accepted load write it. -/
theorem awaitingKeyIsLeftOnlyByKeyOrLoad : Obligations.AwaitingKeyIsLeftOnlyByKeyOrLoad := by
  intro s t x hx hstep
  obtain ⟨done, u, -, hgo, -, -⟩ | ⟨done, -, -, rfl⟩ | ⟨-, -, rfl⟩ | ⟨e, es, hphase, he, rfl⟩ := step_cases hstep
  · simp [(burstGoesOn_eq_true.mp hgo).2] at hx
  · exact .inl ((endTick_execState s).trans hx)
  · exact .inl hx
  · cases e with
    | tick =>
      obtain ⟨p, hp⟩ := beginTick_eq (s.setEvents es)
      exact .inl (by rw [State.handle, hp]; exact hx)
    | key k =>
      rw [State.handle, keyEvent_awaiting (s := s.setEvents es) hx]
      exact .inr (.inl ⟨k, es, hphase, he, rfl, by rw [setExec_reg, reg_setReg_same, keyCode_toNat]⟩)
    | load bytes =>
      obtain ⟨hacc, hload⟩ | hload := loadEvent_cases (s.setEvents es) bytes
      · exact .inr (.inr ⟨bytes, es, hphase, he, hacc, by rw [State.handle, hload, resetWith_execState]⟩)
      · exact .inl (by rw [State.handle, hload]; exact hx)

/-! ### AUDIO (R33) -/

theorem endInstr_setAudio (done : Nat) (t : State) (a : Audio) :
    (t.setAudio a).endInstr done = (t.endInstr done).setAudio a := by
  unfold State.endInstr
  rw [setAudio_execState]
  split <;> rfl

/-- The end of a tick overwrites AUDIO, or leaves it as it was. -/
theorem endTick_setAudio (s : State) (a : Audio) :
    (s.setAudio a).endTick.setAudio .stopped = s.endTick.setAudio .stopped := by
  unfold State.endTick
  rw [setAudio_execState]
  split
  · simp only [audioSignal_eq]; rfl
  · simp only [audioSignal_eq]; rfl
  · rfl
  · rfl

/-- An event overwrites AUDIO, or leaves it as it was. -/
theorem handle_setAudio (s : State) (a : Audio) (e : Event) :
    ((s.setAudio a).handle e).setAudio .stopped = (s.handle e).setAudio .stopped := by
  cases e with
  | tick =>
    simp only [State.handle, State.beginTick, setAudio_execState]
    split <;> rfl
  | key k =>
    simp only [State.handle, State.keyEvent, setAudio_execState]
    split <;> rfl
  | load bytes =>
    simp only [State.handle, State.loadEvent]
    split <;> rfl

/-- Settles O53: every part of a step passes AUDIO on or overwrites it. -/
theorem audioIsOutputOnly : Obligations.AudioIsOutputOnly := by
  intro s a
  cases hphase : s.phase with
  | burst done =>
    cases hgo : s.burstGoesOn done with
    | true =>
      obtain ⟨hdone, hrun⟩ := burstGoesOn_eq_true.mp hgo
      obtain ⟨t, ht, -⟩ := runInstr_outcome s
      have ht' : runInstr (s.setAudio a) = .next (t.setAudio a) := by rw [runInstr_setAudio, ht, onNext]
      exact ⟨t.endInstr done, (t.setAudio a).endInstr done,
        by rw [step_instr hphase hdone hrun, ht, onNext],
        by rw [step_instr (s := s.setAudio a) hphase hdone hrun, ht', onNext],
        by rw [endInstr_setAudio]; rfl⟩
    | false =>
      refine ⟨_, _, step_endTick hphase hgo, step_endTick (s := s.setAudio a) hphase hgo, ?_⟩
      exact congrArg (State.setPhase · .between) (endTick_setAudio s a)
  | between =>
    cases he : s.events with
    | nil => exact ⟨_, _, step_no_event hphase he, step_no_event (s := s.setAudio a) hphase he, rfl⟩
    | cons e es =>
      exact ⟨_, _, step_event hphase he, step_event (s := s.setAudio a) hphase he,
        handle_setAudio (s.setEvents es) a e⟩

end Sys2Proof.Machine
end

section
/-! The steps of a tick and the atomic tick (40_engine.md R105 to R107) [log 6]. -/

namespace Sys2Proof.Machine

theorem setPhase_setPhase (s : State) (p q : Phase) : (s.setPhase p).setPhase q = s.setPhase q := rfl

theorem setPhase_self {s : State} {p : Phase} (h : s.phase = p) : s.setPhase p = s := by
  rw [← h]; rfl

/-- The end of a tick does not look at the scheduler's place. -/
theorem endTick_setPhase (s : State) (p : Phase) : (s.setPhase p).endTick = s.endTick.setPhase p := by
  unfold State.endTick
  rw [setPhase_execState]
  split
  · simp only [audioSignal_eq]; rfl
  · simp only [audioSignal_eq]; rfl
  · rfl
  · rfl

theorem endTick_phase (s : State) : s.endTick.phase = s.phase := by
  obtain ⟨dt, st, a, c, h⟩ := endTick_eq s
  rw [h]

/-- Where a burst is over, its last step is the end of the tick. -/
theorem step_burst_over {s : State} {done : Nat} (hphase : s.phase = .between) (hover : s.burstGoesOn done = false) :
    step (s.setPhase (.burst done)) = .next s.endTick := by
  rw [step_endTick (s := s.setPhase (.burst done)) rfl hover, endTick_setPhase, setPhase_setPhase,
    setPhase_self ((endTick_phase s).trans hphase)]

/-- Where a burst goes on, its next step is the instruction that the loop of R105 runs next. -/
theorem step_burst_on {s u : State} {done : Nat} (hgo : s.burstGoesOn done = true) (hu : runInstr s = .next u) :
    step (s.setPhase (.burst done)) = .next ((u.setPhase (.burst done)).endInstr done) := by
  obtain ⟨hdone, hrun⟩ := burstGoesOn_eq_true.mp hgo
  rw [step_instr (s := s.setPhase (.burst done)) rfl hdone hrun, runInstr_setPhase, hu, onNext, onNext]

theorem burst_running {s u : State} (hrun : s.execState = .running) (hu : runInstr s = .next u) (n : Nat) :
    burst (n + 1) s = burst n u := by
  simp only [burst, hrun, if_true, hu]

theorem burst_not_running {s : State} (h : s.execState ≠ .running) (n : Nat) : burst n s = .next s := by
  cases n with
  | zero => rfl
  | succ n => simp only [burst, h, if_false]

theorem isHalted_ne_running {s : State} (h : s.isHalted = true) : s.execState ≠ .running := fun hrun => by
  simp [State.isHalted, hrun, ExecState.isHalted] at h

/-- From any point of a burst with `n` instructions left, at most `n + 1` steps do what the rest of the loop and the
end of the tick do: by induction on `n`, the loop and the steps running the same instruction next. -/
theorem run_burst (n done : Nat) (s : State) (hphase : s.phase = .between) (hleft : done + n = s.cfg.speed) :
    ∃ m t, 1 ≤ m ∧ m ≤ n + 1 ∧ onNext State.endTick (burst n s) = .next t ∧
      Sys2Proof.core.run m (s.setPhase (.burst done)) = .next t := by
  induction n generalizing done s with
  | zero =>
    have hover : s.burstGoesOn done = false := by
      rw [← Bool.not_eq_true, burstGoesOn_eq_true]
      omega
    exact ⟨1, s.endTick, le_refl _, le_refl _, rfl, core_run_succ (step_burst_over hphase hover) 0⟩
  | succ n ih =>
    by_cases hrun : s.execState = .running
    · have hgo : s.burstGoesOn done = true := burstGoesOn_eq_true.mpr ⟨by omega, hrun⟩
      obtain ⟨u, hu, -⟩ := runInstr_outcome s
      obtain ⟨hcfg, huphase, -⟩ := runInstr_keeps_scheduler hu
      have hubetween : u.phase = .between := huphase.trans hphase
      have hstep := step_burst_on hgo hu
      rw [burst_running hrun hu]
      cases hhalt : u.isHalted with
      | true =>
        rw [endInstr_halted (t := u.setPhase (.burst done)) hhalt, setPhase_setPhase, setPhase_self hubetween] at hstep
        rw [burst_not_running (isHalted_ne_running hhalt), onNext, endTick_stopped (.inr hhalt)]
        exact ⟨1, u, le_refl _, by omega, rfl, core_run_succ hstep 0⟩
      | false =>
        rw [endInstr_not_halted (t := u.setPhase (.burst done)) hhalt, setPhase_setPhase] at hstep
        obtain ⟨m, t, -, hm, htick, hsteps⟩ := ih (done + 1) u hubetween (by rw [hcfg]; omega)
        exact ⟨m + 1, t, by omega, by omega, htick, (core_run_succ hstep m).trans hsteps⟩
    · rw [burst_not_running hrun]
      exact ⟨1, s.endTick, le_refl _, by omega, rfl,
        core_run_succ (step_burst_over hphase (burstGoesOn_eq_false hrun done)) 0⟩

/-- Settles O11: the tick event starts the burst at its first instruction; in IDLE and HALTED neither the steps nor the
atomic tick do anything. -/
theorem tickStepsRefineAtomicTick : Obligations.TickStepsRefineAtomicTick := by
  intro s es hphase he
  have hstart : ∀ {s' : State}, (s.setEvents es).beginTick = s' → step s = .next s' := by
    rintro s' rfl
    exact step_event hphase he
  have hbegun : step s = .next ((s.setEvents es).setPhase (.burst 0)) → ∃ n t, 1 ≤ n ∧ n ≤ s.cfg.speed + 2 ∧
      tick (s.setEvents es) = .next t ∧ Sys2Proof.core.run n s = .next t := by
    intro hstep
    obtain ⟨m, t, -, hm, htick, hsteps⟩ := run_burst s.cfg.speed 0 (s.setEvents es) hphase (Nat.zero_add _)
    exact ⟨m + 1, t, by omega, by omega, htick, (core_run_succ hstep m).trans hsteps⟩
  have hstopped : s.execState = .idle ∨ s.isHalted = true → s.execState ≠ .running → ∃ n t, 1 ≤ n ∧
      n ≤ s.cfg.speed + 2 ∧ tick (s.setEvents es) = .next t ∧ Sys2Proof.core.run n s = .next t := by
    intro hstop hrun
    refine ⟨1, s.setEvents es, le_refl _, by omega, ?_, core_run_succ (hstart (beginTick_stopped hstop)) 0⟩
    rw [tick, burst_not_running (s := s.setEvents es) hrun, onNext, endTick_stopped (s := s.setEvents es) hstop]
  cases hexec : s.execState with
  | running => exact hbegun (hstart (beginTick_running hexec))
  | awaitingKey x => exact hbegun (hstart (beginTick_awaiting hexec))
  | halted f => exact hstopped (.inr (by rw [State.isHalted, hexec]; rfl)) (by simp [hexec])
  | idle => exact hstopped (.inl hexec) (by simp [hexec])

end Sys2Proof.Machine
end

section
/-! The invariants every step keeps (10_state.md R23, R24, 20_memory.md R52, R54, 40_engine.md R105 to R108): one
package for those of memory, stack, PC and screen, and the order of the scheduler apart. -/

namespace Sys2Proof.Machine

/-! ### What a step does to PC, stack, memory and screen -/

/-- The two states agree in the parameters, PC, the stack, memory and the framebuffer. -/
structure SameCore (s t : State) : Prop where
  cfg : t.cfg = s.cfg
  pc : t.pc = s.pc
  stack : t.stack = s.stack
  mem : t.mem = s.mem
  fb : t.fb = s.fb

theorem sameCore_setPhase (s : State) (p : Phase) : SameCore s (s.setPhase p) := ⟨rfl, rfl, rfl, rfl, rfl⟩

theorem sameCore_setExec (s : State) (e : ExecState) : SameCore s (s.setExec e) := ⟨rfl, rfl, rfl, rfl, rfl⟩

theorem SameCore.trans {s t u : State} (h : SameCore s t) (h' : SameCore t u) : SameCore s u :=
  ⟨h'.cfg.trans h.cfg, h'.pc.trans h.pc, h'.stack.trans h.stack, h'.mem.trans h.mem, h'.fb.trans h.fb⟩

theorem sameCore_endTick (s : State) : SameCore s s.endTick := by
  obtain ⟨dt, st, a, c, h⟩ := endTick_eq s
  rw [h]
  exact ⟨rfl, rfl, rfl, rfl, rfl⟩

/-- An event other than an accepted load leaves them alone. -/
theorem handle_core_cases (s : State) (e : Event) : SameCore s (s.handle e) ∨
    ∃ bytes, loadAccepted bytes = true ∧ s.handle e = s.resetWith bytes := by
  cases e with
  | tick =>
    obtain ⟨p, hp⟩ := beginTick_eq s
    rw [State.handle, hp]
    exact .inl (sameCore_setPhase s p)
  | key k =>
    obtain ⟨x, -, hkey⟩ | hkey := keyEvent_cases s k <;>
      exact .inl (by rw [State.handle, hkey]; exact ⟨rfl, rfl, rfl, rfl, rfl⟩)
  | load bytes =>
    obtain ⟨hacc, hload⟩ | hload := loadEvent_cases s bytes
    · exact .inr ⟨bytes, hacc, hload⟩
    · exact .inl (by rw [State.handle, hload]; exact ⟨rfl, rfl, rfl, rfl, rfl⟩)

/-- An instruction that was fetched stood at a PC that passes the checks (R101). -/
theorem canFetch_of_fetchDecode {s : State} {i : Instr} (h : s.fetchDecode = .ok i) : s.canFetch = true := by
  obtain ⟨w, hf, -⟩ := fetchDecode_eq_ok.mp h
  obtain ⟨hodd, hpc, -⟩ := fetch_eq_ok.mp hf
  exact canFetch_eq_true.mpr ⟨hodd, hpc⟩

/-- A step leaves them alone, completes one instruction, or resets the machine. -/
theorem step_core_cases {s t : State} (h : step s = .next t) :
    SameCore s t ∨
    (∃ i u, s.canFetch = true ∧ exec i s = .next u ∧ Completes i s u ∧ SameCore u t) ∨
    ∃ s' bytes, loadAccepted bytes = true ∧ t = State.resetWith s' bytes := by
  obtain ⟨done, u, -, -, hrun, rfl⟩ | ⟨done, -, -, rfl⟩ | ⟨-, -, rfl⟩ | ⟨e, es, -, -, rfl⟩ := step_cases h
  · obtain ⟨p, hp⟩ := endInstr_eq done u
    rw [hp]
    obtain ⟨u', hu', ⟨f, -, -, rfl⟩ | ⟨i, hi, hexec, hcomp⟩⟩ := runInstr_outcome s
    · cases hrun.symm.trans hu'
      exact .inl ((sameCore_setExec s _).trans (sameCore_setPhase _ p))
    · cases hrun.symm.trans hu'
      exact .inr (.inl ⟨i, u, canFetch_of_fetchDecode hi, hexec, hcomp, sameCore_setPhase u p⟩)
  · exact .inl ((sameCore_endTick s).trans (sameCore_setPhase _ _))
  · exact .inl ⟨rfl, rfl, rfl, rfl, rfl⟩
  · have hevents : SameCore s (s.setEvents es) := ⟨rfl, rfl, rfl, rfl, rfl⟩
    obtain hsame | ⟨bytes, hacc, hreset⟩ := handle_core_cases (s.setEvents es) e
    · exact .inl (hevents.trans hsame)
    · exact .inr (.inr ⟨_, bytes, hacc, hreset⟩)

/-- A property of the core is kept by every step if every completed instruction keeps it and every reset gives it. -/
theorem step_keeps {P : State → Prop} (hsame : ∀ s t, SameCore s t → P s → P t)
    (hexec : ∀ i s t, s.canFetch = true → exec i s = .next t → Completes i s t → P s → P t)
    (hreset : ∀ s bytes, loadAccepted bytes = true → P (State.resetWith s bytes)) :
    ∀ s t, P s → step s = .next t → P t := by
  intro s t hs hstep
  obtain hcore | ⟨i, u, hfetch, hu, hcomp, hcore⟩ | ⟨s', bytes, hacc, rfl⟩ := step_core_cases hstep
  · exact hsame s t hcore hs
  · exact hsame u t hcore (hexec i s u hfetch hu hcomp hs)
  · exact hreset s' bytes hacc

/-! ### What a completed instruction does to memory, screen and stack -/

/-- Memory is changed only by a store that passed its checks (R54, R59). -/
theorem exec_mem_cases {i : Instr} {s t : State} (h : exec i s = .next t) :
    t.mem = s.mem ∨ ∃ base bs, base + bs.length ≤ memSize ∧ (s.cfg.protectReserved = true → 0x200 ≤ base) ∧
      t = s.advance.storeBytes base bs := by
  cases i with
  | ldBVx x =>
    obtain ⟨hbad, rfl⟩ | ⟨a, -, rfl⟩ := execLdBVx_cases h
    · obtain ⟨hend, hlow⟩ := (badWrite_eq_none (by omega)).mp hbad
      exact .inr ⟨s.ea 0, bcdDigits (s.reg x), hend, hlow, rfl⟩
    · exact .inl rfl
  | ldMemIVx x =>
    obtain ⟨hbad, rfl⟩ | ⟨a, -, rfl⟩ := execLdMemIVx_cases h
    · obtain ⟨hend, hlow⟩ := (badWrite_eq_none (by omega)).mp hbad
      exact .inr ⟨s.ea 0, s.regBytes x, by rw [regBytes_length]; exact hend, hlow, rfl⟩
    · exact .inl rfl
  | ret => obtain ⟨w, ws, -, rfl⟩ | ⟨-, rfl⟩ := execRet_cases h <;> exact .inl rfl
  | callNnn nnn => obtain ⟨-, rfl⟩ | ⟨-, rfl⟩ := execCallNnn_cases h <;> exact .inl rfl
  | ldVxMemI x =>
    obtain ⟨-, rfl⟩ | ⟨a, -, rfl⟩ := execLdVxMemI_cases h
    · exact .inl (loadRegs_mem ..)
    · exact .inl rfl
  | drwVxVyN x y n =>
    obtain ⟨-, d, rfl, rfl⟩ | ⟨a, -, rfl⟩ := execDrwVxVyN_cases h
    · exact .inl (plot_mem ..)
    · exact .inl rfl
  | _ =>
    cases h
    exact .inl (by simp [advance_eq, skipIf_eq, State.setFlagThenResult, State.displayClear])

/-- The stack is popped by RET, into PC, and pushed by CALL, where an entry is free (R120, R122). -/
theorem exec_stack_cases {i : Instr} {s t : State} (h : exec i s = .next t) (hcomp : Completes i s t) :
    t.stack = s.stack ∨ (∃ w ws, s.stack = w :: ws ∧ t.stack = ws ∧ t.pc = w) ∨
      (s.sp < s.cfg.stackDepth ∧ t.stack = (s.pc + 2) :: s.stack) := by
  cases i with
  | ret =>
    obtain ⟨w, ws, hs, rfl⟩ | ⟨-, rfl⟩ := execRet_cases h
    · exact .inr (.inl ⟨w, ws, hs, rfl, rfl⟩)
    · exact .inl rfl
  | callNnn nnn =>
    obtain ⟨hfree, rfl⟩ | ⟨-, rfl⟩ := execCallNnn_cases h
    · exact .inr (.inr ⟨hfree, rfl⟩)
    · exact .inl rfl
  | _ => exact .inl (hcomp.parts .stack rfl)

/-- The screen stays in canonical form: CLS empties it, and DRW makes calls (R191, R192). -/
theorem exec_fb_wf {i : Instr} {s t : State} (h : exec i s = .next t) (hcomp : Completes i s t)
    (hs : Framebuffer.wf s.cfg s.fb) : Framebuffer.wf s.cfg t.fb := by
  cases i with
  | cls => cases h; exact ⟨List.Pairwise.nil, nofun⟩
  | drwVxVyN x y n =>
    obtain ⟨-, d, rfl, rfl⟩ | ⟨a, -, rfl⟩ := execDrwVxVyN_cases h
    · exact afterDraw_fb_wf hs x y n
    · exact hs
  | _ => exact (hcomp.parts .framebuffer rfl) ▸ hs

/-- The furthest PC gets from a fetch that passed: the target of JP V0 (R23). -/
theorem exec_pc_le {i : Instr} {s t : State} (hfetch : s.canFetch = true) (h : exec i s = .next t)
    (hcomp : Completes i s t) (hstack : ∀ w ∈ s.stack, w.toNat ≤ 0x1000) : t.pc.toNat ≤ 0x10FE := by
  obtain ⟨-, hpc⟩ := canFetch_eq_true.mp hfetch
  have h2 : (s.pc + 2).toNat = s.pc.toNat + 2 := by bv_omega
  have h4 : (s.pc + 4).toNat = s.pc.toNat + 4 := by bv_omega
  have hskip : ∀ {c : Prop} [Decidable c], (if c then s.pc + 4 else s.pc + 2).toNat ≤ 0x10FE := by
    intro c _
    split <;> omega
  have hskip' : ∀ {c : Prop} [Decidable c], (if c then s.pc + 2 else s.pc + 4).toNat ≤ 0x10FE := by
    intro c _
    split <;> omega
  have htarget : ∀ nnn : Addr12, (zextAddr nnn).toNat ≤ 0xFFF := fun nnn => by
    have := nnn.isLt
    rw [zextAddr_toNat]
    omega
  cases i with
  | ret =>
    obtain ⟨w, ws, hs, rfl⟩ | ⟨-, rfl⟩ := execRet_cases h
    · have hw := hstack w (by simp [hs])
      simp only [setPc_pc]
      omega
    · simp only [setExec_pc]
      omega
  | callNnn nnn =>
    have := htarget nnn
    obtain ⟨-, rfl⟩ | ⟨-, rfl⟩ := execCallNnn_cases h
    · simp only [setPc_pc]
      omega
    · simp only [setExec_pc]
      omega
  | jpNnn nnn =>
    have := htarget nnn
    cases (exec_jpNnn nnn s).symm.trans h
    simp only [setPc_pc]
    omega
  | jpV0Nnn nnn =>
    have := nnn.isLt
    have := (s.reg 0).isLt
    cases (exec_jpV0Nnn nnn s).symm.trans h
    rw [setPc_pc, jumpTarget_toNat]
    omega
  | seVxNn x nn => cases (exec_seVxNn x nn s).symm.trans h; exact hskip
  | sneVxNn x nn => cases (exec_sneVxNn x nn s).symm.trans h; exact hskip'
  | seVxVy x y => cases (exec_seVxVy x y s).symm.trans h; exact hskip
  | sneVxVy x y => cases (exec_sneVxVy x y s).symm.trans h; exact hskip'
  | skpVx x => cases (exec_skpVx x s).symm.trans h; exact hskip
  | sknpVx x => cases (exec_sknpVx x s).symm.trans h; exact hskip'
  | _ => rw [hcomp.pc rfl]; omega

/-! ### The obligations of the package -/

/-- Settles O55: a store inside memory, a clear and a draw keep the forms, and a reset starts from empty lists. -/
theorem stepKeepsCanonicalForm : Obligations.StepKeepsCanonicalForm := by
  refine step_keeps (fun s t hcore hs => ?same) (fun i s t _ hexec hcomp hs => ?exec) (fun s bytes hacc => ?reset)
  case same => exact ⟨hcore.cfg ▸ hcore.mem ▸ hs.mem, hcore.cfg ▸ hcore.fb ▸ hs.fb⟩
  case exec =>
    have hcfg := (exec_keeps_scheduler hexec).1
    refine ⟨?_, hcfg ▸ exec_fb_wf hexec hcomp hs.fb⟩
    obtain hmem | ⟨base, bs, hend, -, rfl⟩ := exec_mem_cases hexec
    · exact hcfg ▸ hmem ▸ hs.mem
    · exact storeBytes_wf bs (s := s.advance) hs.mem hend
  case reset =>
    have hmem := resetWith_mem_wf s (loadAccepted_iff.mp hacc).2
    have hfb : Framebuffer.wf s.cfg [] := ⟨List.Pairwise.nil, nofun⟩
    rw [resetWith_eq]
    exact ⟨hmem, hfb⟩

/-- Settles O56: PC by the furthest target, the stack by the room a push needs, and the entry pushed by the fetch's own
check. -/
theorem stepKeepsPcAndStackInRange : Obligations.StepKeepsPcAndStackInRange := by
  refine step_keeps (fun s t hcore hs => ?same) (fun i s t hfetch hexec hcomp hs => ?exec) (fun s bytes _ => ?reset)
  case same =>
    exact ⟨hcore.pc ▸ hs.pc, by rw [State.sp, hcore.stack, hcore.cfg]; exact hs.sp, hcore.stack ▸ hs.stack⟩
  case exec =>
    obtain ⟨-, hpc⟩ := canFetch_eq_true.mp hfetch
    have hsp := hs.sp
    have hentry : (s.pc + 2).toNat ≤ 0x1000 := by bv_omega
    refine ⟨exec_pc_le hfetch hexec hcomp hs.stack, ?_, ?_⟩
    · rw [(exec_keeps_scheduler hexec).1, State.sp]
      rw [State.sp] at hsp
      obtain hkept | ⟨w, ws, hpop, ht, -⟩ | ⟨hfree, hpush⟩ := exec_stack_cases hexec hcomp
      · rw [hkept]; exact hsp
      · rw [hpop, List.length_cons] at hsp
        rw [ht]; omega
      · rw [hpush, List.length_cons]; exact hfree
    · obtain hkept | ⟨w, ws, hpop, ht, -⟩ | ⟨-, hpush⟩ := exec_stack_cases hexec hcomp
      · exact hkept ▸ hs.stack
      · exact fun v hv => hs.stack v (by rw [hpop]; exact List.mem_cons_of_mem w (ht ▸ hv))
      · exact hpush ▸ List.forall_mem_cons.mpr ⟨hentry, hs.stack⟩
  case reset =>
    rw [resetWith_eq]
    exact ⟨(by decide : (0x200 : Word).toNat ≤ 0x10FE), Nat.zero_le _, nofun⟩

/-- Settles O57: the entry pushed is two past a PC that passed the alignment check. -/
theorem stepKeepsReturnAddressesEven : Obligations.StepKeepsReturnAddressesEven := by
  refine step_keeps (fun s t hcore hs => ?same) (fun i s t hfetch hexec hcomp hs => ?exec) (fun s bytes _ => ?reset)
  case same => exact fun hpolicy => hcore.stack ▸ hs (hcore.cfg ▸ hpolicy)
  case exec =>
    intro hpolicy
    rw [(exec_keeps_scheduler hexec).1] at hpolicy
    obtain ⟨hodd, -⟩ := canFetch_eq_true.mp hfetch
    have hpc : s.pc.toNat % 2 = 0 := by
      simpa [State.oddPcFaults, hpolicy] using hodd
    have hentry : (s.pc + 2).toNat % 2 = 0 := by
      rw [BitVec.toNat_add, show (2 : Word).toNat = 2 from rfl]
      omega
    obtain hkept | ⟨w, ws, hpop, ht, -⟩ | ⟨-, hpush⟩ := exec_stack_cases hexec hcomp
    · exact hkept ▸ hs hpolicy
    · exact fun v hv => hs hpolicy v (by rw [hpop]; exact List.mem_cons_of_mem w (ht ▸ hv))
    · exact hpush ▸ List.forall_mem_cons.mpr ⟨hentry, hs hpolicy⟩
  case reset =>
    intro _
    rw [resetWith_eq]
    exact nofun

/-- Settles O58: a store that passed its checks starts at 0x200 or above, and a reset puts its program there. -/
theorem stepKeepsReservedAreaIntact : Obligations.StepKeepsReservedAreaIntact := by
  refine step_keeps (fun s t hcore hs => ?same) (fun i s t _ hexec hcomp hs => ?exec) (fun s bytes _ => ?reset)
  case same =>
    intro hprotect a ha
    rw [State.readByte, hcore.mem, hcore.cfg]
    exact hs (hcore.cfg ▸ hprotect) a ha
  case exec =>
    intro hprotect a ha
    have hcfg := (exec_keeps_scheduler hexec).1
    rw [hcfg] at hprotect ⊢
    obtain hmem | ⟨base, bs, -, hlow, rfl⟩ := exec_mem_cases hexec
    · rw [State.readByte, hmem, hcfg]
      exact hs hprotect a ha
    · have hbase := hlow hprotect
      rw [readByte_storeBytes, dif_neg (by omega)]
      exact hs hprotect a ha
  case reset =>
    intro _ a ha
    rw [readByte_resetWith, dif_neg (by omega), resetWith_eq]

/-! ### The order of the scheduler (R105 to R108) -/

/-- Between events there is nothing to say of a burst. -/
theorem orderly_of_between {s : State} (hphase : s.phase = .between)
    (hrecord : ∀ f, s.execState = .halted f → f.pc = s.pc ∧ f.Legal) : s.Orderly :=
  ⟨fun done hdone => by simp [hphase] at hdone, hrecord⟩

/-- An event keeps the order: a tick starts only in RUNNING or AWAITING_KEY, and the others leave the scheduler between
events. -/
theorem handle_orderly {s : State} (hphase : s.phase = .between)
    (hrecord : ∀ f, s.execState = .halted f → f.pc = s.pc ∧ f.Legal) (e : Event) : (s.handle e).Orderly := by
  have hbegun : s.execState = .running ∨ (∃ x, s.execState = .awaitingKey x) → (s.setPhase (.burst 0)).Orderly :=
    fun h => ⟨fun d hd => by cases hd; exact ⟨Nat.zero_le _, h⟩, hrecord⟩
  cases e with
  | tick =>
    rw [State.handle]
    cases he : s.execState with
    | running => exact beginTick_running he ▸ hbegun (.inl he)
    | awaitingKey x => exact beginTick_awaiting he ▸ hbegun (.inr ⟨x, he⟩)
    | halted f =>
      have hhalted : s.isHalted = true := by rw [State.isHalted, he]; rfl
      exact (beginTick_stopped (.inr hhalted)).symm ▸ orderly_of_between hphase hrecord
    | idle => exact (beginTick_stopped (.inl he)).symm ▸ orderly_of_between hphase hrecord
  | key k =>
    obtain ⟨x, -, hkey⟩ | hkey := keyEvent_cases s k <;> rw [State.handle, hkey]
    · exact orderly_of_between hphase fun f hf => by simp at hf
    · exact orderly_of_between hphase hrecord
  | load bytes =>
    obtain ⟨-, hload⟩ | hload := loadEvent_cases s bytes <;> rw [State.handle, hload]
    · rw [resetWith_eq]
      exact orderly_of_between rfl nofun
    · exact orderly_of_between hphase hrecord

/-- Settles O59: an instruction of a burst leaves RUNNING for a wait or for a legal record, and a record ends the
tick. -/
theorem stepKeepsSchedulerOrderly : Obligations.StepKeepsSchedulerOrderly := by
  intro s t hs hstep
  obtain ⟨done, u, hphase, hgo, hrun, rfl⟩ | ⟨done, -, -, rfl⟩ | ⟨-, -, rfl⟩ | ⟨e, es, hphase, -, rfl⟩ :=
    step_cases hstep
  · obtain ⟨hdone, hrunning⟩ := burstGoesOn_eq_true.mp hgo
    have hcfg := (runInstr_keeps_scheduler hrun).1
    obtain ⟨u', hu', ⟨f, hpc, hlegal, rfl⟩ | ⟨i, -, hexec, hcomp⟩⟩ := runInstr_outcome s
    · cases hrun.symm.trans hu'
      rw [endInstr_halted rfl]
      exact orderly_of_between rfl fun g hg => by cases hg; exact ⟨hpc, hlegal⟩
    · cases hrun.symm.trans hu'
      have hexecState := hcomp.execState hexec
      rw [hrunning] at hexecState
      rw [endInstr_not_halted (hcomp.not_isHalted hexec hrunning)]
      refine ⟨fun d hd => ?_, fun f hf => ?_⟩
      · cases hd
        exact ⟨by rw [setPhase_cfg, hcfg]; exact hdone, hexecState⟩
      · rcases hexecState with h | ⟨x, h⟩ <;> simp [h] at hf
  · obtain ⟨dt, st, a, c, hend⟩ := endTick_eq s
    rw [hend]
    exact orderly_of_between rfl hs.record
  · exact hs
  · exact handle_orderly (s := s.setEvents es) hphase hs.record e

/-! ### The start states -/

/-- No cell, no pixel, no entry and no event: each invariant is about an empty list or a constant. -/
theorem reset_invariants : State.reset.Canonical ∧ State.reset.InRange ∧ State.reset.EvenReturns ∧
    State.reset.ReservedIntact ∧ State.reset.Orderly :=
  ⟨⟨reset_mem_wf, reset_fb_wf⟩, ⟨by decide, by decide, nofun⟩, fun _ => nofun, fun _ _ _ => rfl,
    orderly_of_between rfl nofun⟩

/-- Settles O60: the power-on state differs from the reset state in EXEC alone, of which only the order of the
scheduler speaks. -/
theorem resetAndPowerOnMeetTheInvariants : Obligations.ResetAndPowerOnMeetTheInvariants := by
  obtain ⟨hcanonical, hrange, heven, hreserved, horderly⟩ := reset_invariants
  exact ⟨⟨hcanonical, hrange, heven, hreserved, horderly⟩, ⟨hcanonical.mem, hcanonical.fb⟩,
    ⟨hrange.pc, hrange.sp, hrange.stack⟩, heven, hreserved, orderly_of_between rfl nofun⟩

/-- Settles O45: the fields as they are written down, and the font of R52 byte by byte. -/
theorem resetStateHoldsTheListedValues : Obligations.ResetStateHoldsTheListedValues := by
  refine ⟨replicate_zero_reg _ rfl, rfl, rfl, rfl, rfl, rfl, rfl, rfl, rfl, ?_, ?_, ?_, ?_, fun a ha => ?_, rfl, rfl,
    rfl, rfl, rfl, rfl⟩
  · decide
  · decide
  · decide
  · decide
  · exact resetByte_zero _ ha

end Sys2Proof.Machine
end
